-- ==== Sys2Proof/Word.lean ====
section
/-! DEFINITION. The two word sizes of the block: a 32-bit register (rule R7) and an 8-bit byte (rule R60). -/

namespace Sys2Proof

/-- A register, a command word, or the value of a host access: 32 bits, bit 0 least significant (R7). -/
abbrev Word := BitVec 32

/-- A byte of a FIFO, of the I2C bus, or of a host access on the wire (R60, R65). -/
abbrev Byte := BitVec 8

end Sys2Proof
end

