-- ==== Sys2Proof/Config.lean ====
section
/-! DEFINITION. The fixed sizes (R4), the parameters a model takes as configuration fields (R5), the types of the
bus-transport boundary (R76), and the free values: what the spec leaves open and the machine goes on with. -/

namespace Sys2Proof

/-- `NSLOTS` (R4): the number of command slots. -/
abbrev Config.nslots : Nat := 16

/-- `FIFO_CAP` (R4): the capacity in bytes of each FIFO. -/
abbrev Config.fifoCap : Nat := 32

/-- The direction bit of an address byte (R96): 0 is write, 1 is read. -/
inductive Direction where
  | write
  | read
  deriving DecidableEq, Repr, Inhabited

/-- The answer of `Bus.begin` (R76): some device acknowledged the address, or none did. -/
inductive BeginResult where
  | ok
  | nack
  deriving DecidableEq, Repr, Inhabited

/-- `DONE_BIT` (R4): the bit of a slot's done flag. It is fixed, so it is no part of `LAYOUT`. -/
abbrev Config.doneBit : Nat := 31

/-! ### `LAYOUT` (R5, D1, D2): a map from field name to (low bit, width), one record for each register -/

/-- Where one named field sits in its 32-bit register: its low bit and its width. -/
structure BitField where
  lo : Nat
  width : Nat
  deriving DecidableEq, Repr

/-- The fields of `CTR` (R21). -/
structure CtrLayout where
  sdaForceOut : BitField
  sclForceOut : BitField
  sampleSclLevel : BitField
  msMode : BitField
  transStart : BitField
  txLsbFirst : BitField
  rxLsbFirst : BitField
  fsmRst : BitField
  deriving DecidableEq, Repr

/-- The fields of `SR` (R22), the two counts among them. -/
structure SrLayout where
  ackRec : BitField
  slaveRw : BitField
  timeOut : BitField
  arbLost : BitField
  busBusy : BitField
  slaveAddressed : BitField
  byteTrans : BitField
  rxFifoCnt : BitField
  txFifoCnt : BitField
  sclMainStateLast : BitField
  sclStateLast : BitField
  deriving DecidableEq, Repr

/-- The fields of `FIFO_CONF` (R23). -/
structure FifoConfLayout where
  rxFifoFullThrhd : BitField
  txFifoEmptyThrhd : BitField
  nonfifoEn : BitField
  fifoAddrCfgEn : BitField
  rxFifoRst : BitField
  txFifoRst : BitField
  nonfifoRxThres : BitField
  nonfifoTxThres : BitField
  deriving DecidableEq, Repr

/-- The fields of a command word (R93) but for `done`. -/
structure CmdLayout where
  byteNum : BitField
  ackEn : BitField
  ackExp : BitField
  ackVal : BitField
  opCode : BitField
  deriving DecidableEq, Repr

/-- The bit of each event in the three interrupt registers (R24 to R26, R231): sixteen one-bit fields in bits 15:0
(R98). -/
structure EventLayout where
  rxFifoFull : Nat
  txFifoEmpty : Nat
  rxFifoOvf : Nat
  endDetect : Nat
  slaveTranComp : Nat
  arbitrationLost : Nat
  masterTranComp : Nat
  transComplete : Nat
  timeOut : Nat
  transStart : Nat
  ackErr : Nat
  rxRecFull : Nat
  txSendEmpty : Nat
  sclStTo : Nat
  sclMainStTo : Nat
  detStart : Nat
  deriving DecidableEq, Repr

/-- `LAYOUT` (R5). -/
structure Layout where
  ctr : CtrLayout
  sr : SrLayout
  fifoConf : FifoConfLayout
  cmd : CmdLayout
  events : EventLayout
  deriving DecidableEq, Repr

/-- The parameters of R5 that a step reads. No step changes them. They stand in the state so that a claim about
every state is a claim about every admissible configuration; what R5 requires of them is `Params.wf`, the defaults are
`defaultParams`, both in Decode.lean. (`RX_EMPTY_READ` is the free value `Config.rxEmptyRead`.) -/
structure Params where
  /-- `LAYOUT`: where each named field sits in its register. -/
  layout : Layout
  /-- `MASTER_MODE_VALUE`: the value of `CTR.ms_mode` that selects master mode. -/
  masterMode : Bool
  /-- `WINDOW_BYTES`: the size of the block's address window. -/
  windowBytes : Nat
  /-- `FIFO_CONF_RESET`: FIFO Configuration after the reset operation. -/
  fifoConfReset : Word
  /-- `SR_WRITE_MASK`: the Status bits that a host write changes. -/
  srWriteMask : Word
  deriving DecidableEq, Repr

/-- FREE VALUE. What the transport answers to the `n`-th unscripted draw, a `Bus.begin` (R79). No body. -/
opaque Config.busBeginAnswer : Nat → BitVec 7 → Direction → BeginResult

/-- FREE VALUE. The byte the transport answers to the `n`-th unscripted draw, a `Bus.recv` (R79). No body. -/
opaque Config.busRecvByte : Nat → Byte

/-- FREE VALUE. `RX_EMPTY_READ` (R5, R174, U2): what a read of FIFO Data returns when the receive FIFO is empty, drawn
anew each time. No body. -/
opaque Config.rxEmptyRead : Nat → Word

end Sys2Proof
end

