-- ==== Sys2Proof/Syntax.lean ====
section
/-! DEFINITION. The two formats of R90 as data: a host access (`MMIO`), a command word (`CMD`); and the instructions,
one constructor per row of spec/opcode_table.json. -/

namespace Sys2Proof

/-- A host access as it reaches the block (R61, R91): its kind, its byte offset from the start of the window, and
either the number of bytes read or the bytes written, in the order they have on the wire (R65). -/
inductive Access where
  | read (off width : Nat)
  | write (off : Nat) (data : List Byte)
  deriving DecidableEq, Repr

/-- The encoded form of an instruction: a host access, or the word of a command slot (R90). -/
inductive Encoded where
  | mmio (a : Access)
  | cmd (w : Word)
  deriving DecidableEq, Repr

/-- The instructions: the host operations of R131 to R150 and the commands of R195 to R202. A command carries the
four fields of its word that are not the opcode (R93); the done flag is no part of it (R94). -/
inductive Instr where
  /-- `RD_CTR` (R132). -/
  | rdCtr
  /-- `WR_CTR` (R131). -/
  | wrCtr (v : Word)
  /-- `RD_SR` (R134). -/
  | rdSr
  /-- `WR_SR` (R133). -/
  | wrSr (v : Word)
  /-- `RD_FIFO_CONF` (R136). -/
  | rdFifoConf
  /-- `WR_FIFO_CONF` (R135). -/
  | wrFifoConf (v : Word)
  /-- `RD_DATA` (R138). -/
  | rdData
  /-- `WR_DATA` (R137). -/
  | wrData (v : Word)
  /-- `RD_INT_RAW` (R139). -/
  | rdIntRaw
  /-- `WR_INT_RAW` (R140). -/
  | wrIntRaw (v : Word)
  /-- `RD_INT_CLR` (R142). -/
  | rdIntClr
  /-- `WR_INT_CLR` (R141). -/
  | wrIntClr (v : Word)
  /-- `RD_INT_ENA` (R144). -/
  | rdIntEna
  /-- `WR_INT_ENA` (R143). -/
  | wrIntEna (v : Word)
  /-- `RD_INT_ST` (R145). -/
  | rdIntSt
  /-- `WR_INT_ST` (R146). -/
  | wrIntSt (v : Word)
  /-- `RD_CMD_0` (R148). -/
  | rdCmd0
  /-- `RD_CMD_1` (R148). -/
  | rdCmd1
  /-- `RD_CMD_2` (R148). -/
  | rdCmd2
  /-- `RD_CMD_3` (R148). -/
  | rdCmd3
  /-- `RD_CMD_4` (R148). -/
  | rdCmd4
  /-- `RD_CMD_5` (R148). -/
  | rdCmd5
  /-- `RD_CMD_6` (R148). -/
  | rdCmd6
  /-- `RD_CMD_7` (R148). -/
  | rdCmd7
  /-- `RD_CMD_8` (R148). -/
  | rdCmd8
  /-- `RD_CMD_9` (R148). -/
  | rdCmd9
  /-- `RD_CMD_10` (R148). -/
  | rdCmd10
  /-- `RD_CMD_11` (R148). -/
  | rdCmd11
  /-- `RD_CMD_12` (R148). -/
  | rdCmd12
  /-- `RD_CMD_13` (R148). -/
  | rdCmd13
  /-- `RD_CMD_14` (R148). -/
  | rdCmd14
  /-- `RD_CMD_15` (R148). -/
  | rdCmd15
  /-- `WR_CMD_0` (R147). -/
  | wrCmd0 (v : Word)
  /-- `WR_CMD_1` (R147). -/
  | wrCmd1 (v : Word)
  /-- `WR_CMD_2` (R147). -/
  | wrCmd2 (v : Word)
  /-- `WR_CMD_3` (R147). -/
  | wrCmd3 (v : Word)
  /-- `WR_CMD_4` (R147). -/
  | wrCmd4 (v : Word)
  /-- `WR_CMD_5` (R147). -/
  | wrCmd5 (v : Word)
  /-- `WR_CMD_6` (R147). -/
  | wrCmd6 (v : Word)
  /-- `WR_CMD_7` (R147). -/
  | wrCmd7 (v : Word)
  /-- `WR_CMD_8` (R147). -/
  | wrCmd8 (v : Word)
  /-- `WR_CMD_9` (R147). -/
  | wrCmd9 (v : Word)
  /-- `WR_CMD_10` (R147). -/
  | wrCmd10 (v : Word)
  /-- `WR_CMD_11` (R147). -/
  | wrCmd11 (v : Word)
  /-- `WR_CMD_12` (R147). -/
  | wrCmd12 (v : Word)
  /-- `WR_CMD_13` (R147). -/
  | wrCmd13 (v : Word)
  /-- `WR_CMD_14` (R147). -/
  | wrCmd14 (v : Word)
  /-- `WR_CMD_15` (R147). -/
  | wrCmd15 (v : Word)
  /-- `RD_UNKNOWN` (R149): a read at an offset that is not in the register map. -/
  | rdUnknown (off : Nat)
  /-- `WR_UNKNOWN` (R150): a write at an offset that is not in the register map. -/
  | wrUnknown (off : Nat) (v : Word)
  /-- `RESTART` (R195). -/
  | cmdRestart (byteNum : BitVec 8) (ackEn ackExp ackVal : Bool)
  /-- `WRITE` (R196). -/
  | cmdWrite (byteNum : BitVec 8) (ackEn ackExp ackVal : Bool)
  /-- `READ` (R199). -/
  | cmdRead (byteNum : BitVec 8) (ackEn ackExp ackVal : Bool)
  /-- `STOP` (R200). -/
  | cmdStop (byteNum : BitVec 8) (ackEn ackExp ackVal : Bool)
  /-- `END` (R201). -/
  | cmdEnd (byteNum : BitVec 8) (ackEn ackExp ackVal : Bool)
  /-- `UNKNOWN_5` (R202). -/
  | cmdUnknown5 (byteNum : BitVec 8) (ackEn ackExp ackVal : Bool)
  /-- `UNKNOWN_6` (R202). -/
  | cmdUnknown6 (byteNum : BitVec 8) (ackEn ackExp ackVal : Bool)
  /-- `UNKNOWN_7` (R202). -/
  | cmdUnknown7 (byteNum : BitVec 8) (ackEn ackExp ackVal : Bool)
  deriving DecidableEq, Repr

end Sys2Proof
end

