-- ==== Sys2Proof/WellFormed.lean ====
section
/-! DEFINITION. What makes an access admissible and an instruction well formed: the window, the alignment and the
register map of R62 to R66. -/

namespace Sys2Proof

/-- The offsets of the register map (R62): eight registers and the sixteen command slots `0x58 + 4*i`. -/
def isMapped (off : Nat) : Bool :=
  [0x04, 0x08, 0x18, 0x1c, 0x20, 0x24, 0x28, 0x2c].contains off ||
  (off % 4 == 0 && decide (0x58 ≤ off) && decide (off ≤ 0x94))

/-- An offset the two unknown-offset operations stand for (R64): aligned, inside the window, not in the map. -/
def isUnknownOffset (window off : Nat) : Bool :=
  off % 4 == 0 && decide (off < window) && !isMapped off

/-- A well-formed instruction: every operand value is admitted but for the offset of the two unknown-offset
operations, which no mapped, misaligned or outside offset may be (R91, R101). -/
def Instr.wf (window : Nat) : Instr → Bool
  | .rdCtr | .rdSr | .rdFifoConf | .rdData | .rdIntRaw | .rdIntClr | .rdIntEna | .rdIntSt => true
  | .wrCtr _ | .wrSr _ | .wrFifoConf _ | .wrData _ | .wrIntRaw _ | .wrIntClr _ | .wrIntEna _ | .wrIntSt _ => true
  | .rdCmd0 | .rdCmd1 | .rdCmd2 | .rdCmd3 | .rdCmd4 | .rdCmd5 | .rdCmd6 | .rdCmd7
  | .rdCmd8 | .rdCmd9 | .rdCmd10 | .rdCmd11 | .rdCmd12 | .rdCmd13 | .rdCmd14 | .rdCmd15 => true
  | .wrCmd0 _ | .wrCmd1 _ | .wrCmd2 _ | .wrCmd3 _ | .wrCmd4 _ | .wrCmd5 _ | .wrCmd6 _ | .wrCmd7 _
  | .wrCmd8 _ | .wrCmd9 _ | .wrCmd10 _ | .wrCmd11 _ | .wrCmd12 _ | .wrCmd13 _ | .wrCmd14 _ | .wrCmd15 _ => true
  | .rdUnknown off => isUnknownOffset window off
  | .wrUnknown off _ => isUnknownOffset window off
  | .cmdRestart _ _ _ _ | .cmdWrite _ _ _ _ | .cmdRead _ _ _ _ | .cmdStop _ _ _ _
  | .cmdEnd _ _ _ _ | .cmdUnknown5 _ _ _ _ | .cmdUnknown6 _ _ _ _ | .cmdUnknown7 _ _ _ _ => true

/-- The instructions of format `MMIO` (R91): the host operations, against the engine's commands. -/
def Instr.isHostAccess : Instr → Bool
  | .rdCtr | .rdSr | .rdFifoConf | .rdData | .rdIntRaw | .rdIntClr | .rdIntEna | .rdIntSt => true
  | .wrCtr _ | .wrSr _ | .wrFifoConf _ | .wrData _ | .wrIntRaw _ | .wrIntClr _ | .wrIntEna _ | .wrIntSt _ => true
  | .rdCmd0 | .rdCmd1 | .rdCmd2 | .rdCmd3 | .rdCmd4 | .rdCmd5 | .rdCmd6 | .rdCmd7
  | .rdCmd8 | .rdCmd9 | .rdCmd10 | .rdCmd11 | .rdCmd12 | .rdCmd13 | .rdCmd14 | .rdCmd15 => true
  | .wrCmd0 _ | .wrCmd1 _ | .wrCmd2 _ | .wrCmd3 _ | .wrCmd4 _ | .wrCmd5 _ | .wrCmd6 _ | .wrCmd7 _
  | .wrCmd8 _ | .wrCmd9 _ | .wrCmd10 _ | .wrCmd11 _ | .wrCmd12 _ | .wrCmd13 _ | .wrCmd14 _ | .wrCmd15 _ => true
  | .rdUnknown _ | .wrUnknown _ _ => true
  | .cmdRestart _ _ _ _ | .cmdWrite _ _ _ _ | .cmdRead _ _ _ _ | .cmdStop _ _ _ _
  | .cmdEnd _ _ _ _ | .cmdUnknown5 _ _ _ _ | .cmdUnknown6 _ _ _ _ | .cmdUnknown7 _ _ _ _ => false

end Sys2Proof
end

