-- ==== Sys2Proof/Decode.lean ====
section
/-! DEFINITION. The bit-field and byte-order helpers, what R5 requires of the parameters and their defaults (the default
`LAYOUT` among them), the decoder of a host access and of a command word (total, rejecting by name), and the encoder. -/

namespace Sys2Proof

/-! ### Fields of a word (R7) -/

/-- A word whose lowest `w` bits are 1. -/
def onesWord (w : Nat) : Word := BitVec.ofNat 32 (2 ^ w - 1)

/-- `v[hi:lo]`, the field's value as a number in a word. -/
def BitField.get (f : BitField) (v : Word) : Word := (v >>> f.lo) &&& onesWord f.width

/-- `v[lo]`, the value of a one-bit field. -/
def BitField.bit (f : BitField) (v : Word) : Bool := v.getLsbD f.lo

/-- A word with `x` in the field and 0 elsewhere; bits of `x` beyond the field's width are dropped. -/
def BitField.place (f : BitField) (x : Word) : Word := (x &&& onesWord f.width) <<< f.lo

/-- The bits of the field. -/
def BitField.mask (f : BitField) : Word := onesWord f.width <<< f.lo

/-- The value of a flag, as a field's value. -/
def wordOfBool (b : Bool) : Word := (BitVec.ofBool b).setWidth 32

/-- A word made of fields and their values, 0 in every other bit (R42). -/
def packFields : List (BitField × Word) → Word
  | [] => 0
  | (f, x) :: rest => f.place x ||| packFields rest

/-- The bits that belong to some field of a register. -/
def definedBits : List BitField → Word
  | [] => 0
  | f :: rest => f.mask ||| definedBits rest

/-- Two fields share no bit. -/
def BitField.disjoint (f g : BitField) : Bool :=
  decide (f.lo + f.width ≤ g.lo) || decide (g.lo + g.width ≤ f.lo)

/-- The fields of one register: each at least one bit, inside the 32 bits, no two sharing a bit. -/
def fieldsOk : List BitField → Bool
  | [] => true
  | f :: rest => decide (1 ≤ f.width) && decide (f.lo + f.width ≤ 32) && rest.all f.disjoint && fieldsOk rest

/-! ### What R5 requires of `LAYOUT` and of the other parameters -/

/-- The fields of `CTR` (R21). -/
def CtrLayout.fields (L : CtrLayout) : List BitField :=
  [L.sdaForceOut, L.sclForceOut, L.sampleSclLevel, L.msMode, L.transStart, L.txLsbFirst, L.rxLsbFirst, L.fsmRst]

/-- The flags of `SR`, one bit each (R22, D2). -/
def SrLayout.flags (L : SrLayout) : List BitField :=
  [L.ackRec, L.slaveRw, L.timeOut, L.arbLost, L.busBusy, L.slaveAddressed, L.byteTrans]

/-- The stored fields of `SR`: all but the two counts (R22). -/
def SrLayout.stored (L : SrLayout) : List BitField := L.flags ++ [L.sclMainStateLast, L.sclStateLast]

/-- The fields of `SR` (R22). -/
def SrLayout.fields (L : SrLayout) : List BitField := L.stored ++ [L.rxFifoCnt, L.txFifoCnt]

/-- The fields of `FIFO_CONF` (R23). -/
def FifoConfLayout.fields (L : FifoConfLayout) : List BitField :=
  [L.rxFifoFullThrhd, L.txFifoEmptyThrhd, L.nonfifoEn, L.fifoAddrCfgEn, L.rxFifoRst, L.txFifoRst,
    L.nonfifoRxThres, L.nonfifoTxThres]

/-- The flags of `FIFO_CONF`, one bit each (R23, D2). -/
def FifoConfLayout.flags (L : FifoConfLayout) : List BitField :=
  [L.nonfifoEn, L.fifoAddrCfgEn, L.rxFifoRst, L.txFifoRst]

/-- The fields of a command word but for `done` (R93). -/
def CmdLayout.fields (L : CmdLayout) : List BitField := [L.opCode, L.ackVal, L.ackExp, L.ackEn, L.byteNum]

/-- `done` as a field (R4). -/
def doneField : BitField := ⟨Config.doneBit, 1⟩

/-- The bits of the sixteen events, in the order of R231. -/
def EventLayout.bits (L : EventLayout) : List Nat :=
  [L.rxFifoFull, L.txFifoEmpty, L.rxFifoOvf, L.endDetect, L.slaveTranComp, L.arbitrationLost, L.masterTranComp,
    L.transComplete, L.timeOut, L.transStart, L.ackErr, L.rxRecFull, L.txSendEmpty, L.sclStTo, L.sclMainStTo, L.detStart]

/-- Every field of the list is one bit wide. -/
def allFlags (l : List BitField) : Bool := l.all fun f => f.width == 1

/-- What a `LAYOUT` must be: in each register the fields lie inside the 32 bits and share none; flags are one bit (D2);
`byte_num` 8, `op_code` 3 and the counts 6 bits (R4); `done` is bit 31 of a slot and no other field's (R4); the
sixteen events have sixteen different bits of 15:0 (R98). -/
def Layout.wf (L : Layout) : Bool :=
  fieldsOk L.ctr.fields && allFlags L.ctr.fields &&
  (fieldsOk L.sr.fields && allFlags L.sr.flags && L.sr.rxFifoCnt.width == 6 && L.sr.txFifoCnt.width == 6) &&
  (fieldsOk L.fifoConf.fields && allFlags L.fifoConf.flags) &&
  (fieldsOk (doneField :: L.cmd.fields) && allFlags [L.cmd.ackEn, L.cmd.ackExp, L.cmd.ackVal] &&
    L.cmd.byteNum.width == 8 && L.cmd.opCode.width == 3) &&
  (L.events.bits.all (fun k => decide (k < 16)) && decide L.events.bits.Nodup)

/-- What R5 requires of the parameters: `LAYOUT` is one; the window is a multiple of 4 and at least 0x98 bytes;
`FIFO_CONF_RESET` has 1s in defined fields only and the two reset bits 0; `SR_WRITE_MASK` is a subset of Status's
defined bits without the two counts. -/
def Params.wf (p : Params) : Bool :=
  p.layout.wf &&
  (p.windowBytes % 4 == 0 && decide (0x98 ≤ p.windowBytes)) &&
  (p.fifoConfReset &&& ~~~definedBits p.layout.fifoConf.fields == 0 &&
    !p.layout.fifoConf.rxFifoRst.bit p.fifoConfReset && !p.layout.fifoConf.txFifoRst.bit p.fifoConfReset) &&
  p.srWriteMask &&& ~~~definedBits p.layout.sr.stored == 0

/-! ### The defaults of R5 (log entries 1 and 2) -/

/-- The default of `LAYOUT` for `CTR` (R21). -/
def defaultCtrLayout : CtrLayout where
  sdaForceOut := ⟨0, 1⟩
  sclForceOut := ⟨1, 1⟩
  sampleSclLevel := ⟨2, 1⟩
  msMode := ⟨4, 1⟩
  transStart := ⟨5, 1⟩
  txLsbFirst := ⟨6, 1⟩
  rxLsbFirst := ⟨7, 1⟩
  fsmRst := ⟨10, 1⟩

/-- The default of `LAYOUT` for `SR` (R22). -/
def defaultSrLayout : SrLayout where
  ackRec := ⟨0, 1⟩
  slaveRw := ⟨1, 1⟩
  timeOut := ⟨2, 1⟩
  arbLost := ⟨3, 1⟩
  busBusy := ⟨4, 1⟩
  slaveAddressed := ⟨5, 1⟩
  byteTrans := ⟨6, 1⟩
  rxFifoCnt := ⟨8, 6⟩
  txFifoCnt := ⟨18, 6⟩
  sclMainStateLast := ⟨24, 3⟩
  sclStateLast := ⟨28, 3⟩

/-- The default of `LAYOUT` for `FIFO_CONF` (R23). -/
def defaultFifoConfLayout : FifoConfLayout where
  rxFifoFullThrhd := ⟨0, 5⟩
  txFifoEmptyThrhd := ⟨5, 5⟩
  nonfifoEn := ⟨10, 1⟩
  fifoAddrCfgEn := ⟨11, 1⟩
  rxFifoRst := ⟨12, 1⟩
  txFifoRst := ⟨13, 1⟩
  nonfifoRxThres := ⟨14, 6⟩
  nonfifoTxThres := ⟨20, 6⟩

/-- The default of `LAYOUT` for a command word (R93). -/
def defaultCmdLayout : CmdLayout where
  byteNum := ⟨0, 8⟩
  ackEn := ⟨8, 1⟩
  ackExp := ⟨9, 1⟩
  ackVal := ⟨10, 1⟩
  opCode := ⟨11, 3⟩

/-- The default of `LAYOUT` for the interrupt registers (R231, D35): list position. -/
def defaultEventLayout : EventLayout where
  rxFifoFull := 0
  txFifoEmpty := 1
  rxFifoOvf := 2
  endDetect := 3
  slaveTranComp := 4
  arbitrationLost := 5
  masterTranComp := 6
  transComplete := 7
  timeOut := 8
  transStart := 9
  ackErr := 10
  rxRecFull := 11
  txSendEmpty := 12
  sclStTo := 13
  sclMainStTo := 14
  detStart := 15

/-- The default of `LAYOUT` (R5). -/
def defaultLayout : Layout where
  ctr := defaultCtrLayout
  sr := defaultSrLayout
  fifoConf := defaultFifoConfLayout
  cmd := defaultCmdLayout
  events := defaultEventLayout

/-- The defaults of R5. -/
def defaultParams : Params where
  layout := defaultLayout
  masterMode := true
  windowBytes := 0x1000
  fifoConfReset := 0x00000000
  srWriteMask := 0x7700007F

/-! ### Byte order (R65): little-endian on the wire -/

/-- The four bytes of a register in wire order: bits 7:0 first. -/
def bytesOfWord (v : Word) : List Byte :=
  [v.extractLsb' 0 8, v.extractLsb' 8 8, v.extractLsb' 16 8, v.extractLsb' 24 8]

/-- The register value that four bytes in wire order make; no other number of bytes makes one (R66). -/
def wordOfBytes : List Byte → Option Word
  | [b0, b1, b2, b3] => some (b3 ++ b2 ++ b1 ++ b0)
  | _ => none

/-! ### Host accesses (R91, R92) -/

/-- Why an access has no meaning (R63, R66): it is refused, never trapped. -/
inductive DecodeError where
  /-- The access is not 4 bytes wide (R66). -/
  | badWidth
  /-- The offset is not a multiple of 4 (R66). -/
  | misaligned
  /-- The offset is at or beyond `WINDOW_BYTES` (R63). -/
  | outsideWindow
  deriving DecidableEq, Repr

/-- One row of the register map (R62): an offset, and the operations its read and its write select. -/
structure MapRow where
  off : Nat
  rd : Instr
  wr : Word → Instr

/-- The register map (R62) up to the slots. -/
def registerRows : List MapRow :=
  [ ⟨0x04, .rdCtr, .wrCtr⟩,
    ⟨0x08, .rdSr, .wrSr⟩,
    ⟨0x18, .rdFifoConf, .wrFifoConf⟩,
    ⟨0x1c, .rdData, .wrData⟩,
    ⟨0x20, .rdIntRaw, .wrIntRaw⟩,
    ⟨0x24, .rdIntClr, .wrIntClr⟩,
    ⟨0x28, .rdIntEna, .wrIntEna⟩,
    ⟨0x2c, .rdIntSt, .wrIntSt⟩ ]

/-- The register map (R62): slots 0 to 7. -/
def lowSlotRows : List MapRow :=
  [ ⟨0x58, .rdCmd0, .wrCmd0⟩,
    ⟨0x5c, .rdCmd1, .wrCmd1⟩,
    ⟨0x60, .rdCmd2, .wrCmd2⟩,
    ⟨0x64, .rdCmd3, .wrCmd3⟩,
    ⟨0x68, .rdCmd4, .wrCmd4⟩,
    ⟨0x6c, .rdCmd5, .wrCmd5⟩,
    ⟨0x70, .rdCmd6, .wrCmd6⟩,
    ⟨0x74, .rdCmd7, .wrCmd7⟩ ]

/-- The register map (R62): slots 8 to 15. -/
def highSlotRows : List MapRow :=
  [ ⟨0x78, .rdCmd8, .wrCmd8⟩,
    ⟨0x7c, .rdCmd9, .wrCmd9⟩,
    ⟨0x80, .rdCmd10, .wrCmd10⟩,
    ⟨0x84, .rdCmd11, .wrCmd11⟩,
    ⟨0x88, .rdCmd12, .wrCmd12⟩,
    ⟨0x8c, .rdCmd13, .wrCmd13⟩,
    ⟨0x90, .rdCmd14, .wrCmd14⟩,
    ⟨0x94, .rdCmd15, .wrCmd15⟩ ]

/-- The register map of R62. -/
def registerMap : List MapRow := registerRows ++ lowSlotRows ++ highSlotRows

/-- The row of an offset, if the map has one. -/
def rowAt (off : Nat) : Option MapRow := registerMap.find? (fun r => r.off == off)

/-- The operation a read at `off` selects (R91); an absent offset is unknown (R101). -/
def readInstr (off : Nat) : Instr :=
  match rowAt off with
  | some r => r.rd
  | none => .rdUnknown off

/-- The operation a write of `v` at `off` selects (R91); an absent offset is unknown (R101). -/
def writeInstr (off : Nat) (v : Word) : Instr :=
  match rowAt off with
  | some r => r.wr v
  | none => .wrUnknown off v

/-- Whether an offset is admitted (R92, step 1): aligned and inside the window. -/
def checkOffset (window off : Nat) : Except DecodeError Unit :=
  if off % 4 ≠ 0 then .error .misaligned
  else if window ≤ off then .error .outsideWindow
  else .ok ()

/-- The decoder of a host access (R92): width, alignment and window first, then the map. -/
def decodeAccess (window : Nat) : Access → Except DecodeError Instr
  | .read off width =>
    if width ≠ 4 then .error .badWidth
    else (checkOffset window off).map fun _ => readInstr off
  | .write off data =>
    match wordOfBytes data with
    | none => .error .badWidth
    | some v => (checkOffset window off).map fun _ => writeInstr off v

/-! ### Command words (R93, R94) -/

/-- The eight values of `op_code` (R94). -/
inductive Opcode where
  | restart
  | write
  | read
  | stop
  | endOp
  | unknown5
  | unknown6
  | unknown7
  deriving DecidableEq, Repr

/-- The opcode of a value of `op_code`, its three bits from the highest down (R94). -/
def opcodeOf (op : BitVec 3) : Opcode :=
  match op.getLsbD 2, op.getLsbD 1, op.getLsbD 0 with
  | false, false, false => .restart
  | false, false, true => .write
  | false, true, false => .read
  | false, true, true => .stop
  | true, false, false => .endOp
  | true, false, true => .unknown5
  | true, true, false => .unknown6
  | true, true, true => .unknown7

/-- The command of an opcode, with the four other fields of its word. -/
def commandOf (o : Opcode) (n : BitVec 8) (en ex av : Bool) : Instr :=
  match o with
  | .restart => .cmdRestart n en ex av
  | .write => .cmdWrite n en ex av
  | .read => .cmdRead n en ex av
  | .stop => .cmdStop n en ex av
  | .endOp => .cmdEnd n en ex av
  | .unknown5 => .cmdUnknown5 n en ex av
  | .unknown6 => .cmdUnknown6 n en ex av
  | .unknown7 => .cmdUnknown7 n en ex av

/-- `byte_num` of a command word (R93). -/
def CmdLayout.byteNumOf (L : CmdLayout) (w : Word) : BitVec 8 := (L.byteNum.get w).setWidth 8

/-- `op_code` of a command word (R93). -/
def CmdLayout.opCodeOf (L : CmdLayout) (w : Word) : BitVec 3 := (L.opCode.get w).setWidth 3

/-- The decoder of a command word (R94): it looks at the opcode field alone, and the done flag is no part of it. -/
def decodeCommand (L : CmdLayout) (w : Word) : Instr :=
  commandOf (opcodeOf (L.opCodeOf w)) (L.byteNumOf w) (L.ackEn.bit w) (L.ackExp.bit w) (L.ackVal.bit w)

/-- The decoder of both formats. -/
def decode (p : Params) : Encoded → Except DecodeError Instr
  | .mmio a => decodeAccess p.windowBytes a
  | .cmd w => .ok (decodeCommand p.layout.cmd w)

/-! ### The encoder -/

/-- A 4-byte read at `off`. -/
def readAt (off : Nat) : Encoded := .mmio (.read off 4)

/-- A 4-byte write of `v` at `off`. -/
def writeAt (off : Nat) (v : Word) : Encoded := .mmio (.write off (bytesOfWord v))

/-- The command word of the five fields, `done` 0 (R93); under the default `LAYOUT` it is the encoding of R103,
`(op_code << 11) | (ack_val << 10) | (ack_exp << 9) | (ack_en << 8) | byte_num`. -/
def commandWord (L : CmdLayout) (op : BitVec 3) (n : BitVec 8) (en ex av : Bool) : Word :=
  packFields [(L.opCode, op.setWidth 32), (L.ackVal, wordOfBool av), (L.ackExp, wordOfBool ex),
    (L.ackEn, wordOfBool en), (L.byteNum, n.setWidth 32)]

/-- The encoding of an instruction: the access of the register map (R62), or the command word (R93). -/
def encode (L : CmdLayout) : Instr → Encoded
  | .rdCtr => readAt 0x04
  | .wrCtr v => writeAt 0x04 v
  | .rdSr => readAt 0x08
  | .wrSr v => writeAt 0x08 v
  | .rdFifoConf => readAt 0x18
  | .wrFifoConf v => writeAt 0x18 v
  | .rdData => readAt 0x1c
  | .wrData v => writeAt 0x1c v
  | .rdIntRaw => readAt 0x20
  | .wrIntRaw v => writeAt 0x20 v
  | .rdIntClr => readAt 0x24
  | .wrIntClr v => writeAt 0x24 v
  | .rdIntEna => readAt 0x28
  | .wrIntEna v => writeAt 0x28 v
  | .rdIntSt => readAt 0x2c
  | .wrIntSt v => writeAt 0x2c v
  | .rdCmd0 => readAt 0x58
  | .wrCmd0 v => writeAt 0x58 v
  | .rdCmd1 => readAt 0x5c
  | .wrCmd1 v => writeAt 0x5c v
  | .rdCmd2 => readAt 0x60
  | .wrCmd2 v => writeAt 0x60 v
  | .rdCmd3 => readAt 0x64
  | .wrCmd3 v => writeAt 0x64 v
  | .rdCmd4 => readAt 0x68
  | .wrCmd4 v => writeAt 0x68 v
  | .rdCmd5 => readAt 0x6c
  | .wrCmd5 v => writeAt 0x6c v
  | .rdCmd6 => readAt 0x70
  | .wrCmd6 v => writeAt 0x70 v
  | .rdCmd7 => readAt 0x74
  | .wrCmd7 v => writeAt 0x74 v
  | .rdCmd8 => readAt 0x78
  | .wrCmd8 v => writeAt 0x78 v
  | .rdCmd9 => readAt 0x7c
  | .wrCmd9 v => writeAt 0x7c v
  | .rdCmd10 => readAt 0x80
  | .wrCmd10 v => writeAt 0x80 v
  | .rdCmd11 => readAt 0x84
  | .wrCmd11 v => writeAt 0x84 v
  | .rdCmd12 => readAt 0x88
  | .wrCmd12 v => writeAt 0x88 v
  | .rdCmd13 => readAt 0x8c
  | .wrCmd13 v => writeAt 0x8c v
  | .rdCmd14 => readAt 0x90
  | .wrCmd14 v => writeAt 0x90 v
  | .rdCmd15 => readAt 0x94
  | .wrCmd15 v => writeAt 0x94 v
  | .rdUnknown off => readAt off
  | .wrUnknown off v => writeAt off v
  | .cmdRestart n en ex av => .cmd (commandWord L 0 n en ex av)
  | .cmdWrite n en ex av => .cmd (commandWord L 1 n en ex av)
  | .cmdRead n en ex av => .cmd (commandWord L 2 n en ex av)
  | .cmdStop n en ex av => .cmd (commandWord L 3 n en ex av)
  | .cmdEnd n en ex av => .cmd (commandWord L 4 n en ex av)
  | .cmdUnknown5 n en ex av => .cmd (commandWord L 5 n en ex av)
  | .cmdUnknown6 n en ex av => .cmd (commandWord L 6 n en ex av)
  | .cmdUnknown7 n en ex av => .cmd (commandWord L 7 n en ex av)

/-! ### The opcode table's numbers -/

/-- What a bare number of spec/opcode_table.json stands for. The table gives an `MMIO` row no bit for its kind and no
bit tells the two formats apart, so the table's own priorities decide (R91, log entry 3): an exact offset of the map is
an access, and a read, since the bits above the table's are 0; any other number is a command word; a row that the
table gives no bits at all is an unknown offset. -/
def tableEncoded (nbits w : Nat) : Encoded :=
  if nbits = 0 then readAt w
  else if isMapped (w % 2 ^ nbits) then readAt (w % 2 ^ nbits)
  else .cmd (BitVec.ofNat 32 (w % 2 ^ nbits))

/-- The instruction the decoder reads from a number of the opcode table, which is under the default parameters. -/
def decodeTableWord (nbits w : Nat) : Option Instr :=
  match decode defaultParams (tableEncoded nbits w) with
  | .ok i => some i
  | .error _ => none

end Sys2Proof
end

