-- ==== Sys2Proof/Machine/Registers.lean ====
section
/-! DEFINITION. The register records (each "a fixed-width bitfield record", 10_state.md §2), how they are packed into a
word and taken from one under a `LAYOUT`, and their values after reset. A bit that
belongs to no field has no storage, so it reads 0 and ignores writes (R42). -/

namespace Sys2Proof.Machine

/-- `CTR` (R21). -/
structure Ctr where
  sdaForceOut : Bool
  sclForceOut : Bool
  sampleSclLevel : Bool
  msMode : Bool
  transStart : Bool
  txLsbFirst : Bool
  rxLsbFirst : Bool
  fsmRst : Bool
  deriving DecidableEq, Repr

/-- The stored fields of `SR` (R22); the two counts are views (R38). `busBusy` is true for BUSY, false for IDLE. A field
whose width `LAYOUT` fixes is held as its value in a word. -/
structure Sr where
  ackRec : Bool
  slaveRw : Bool
  timeOut : Bool
  arbLost : Bool
  busBusy : Bool
  slaveAddressed : Bool
  byteTrans : Bool
  sclMainStateLast : Word
  sclStateLast : Word
  deriving DecidableEq, Repr

/-- `FIFO_CONF` (R23). A field whose width `LAYOUT` fixes is held as its value in a word. -/
structure FifoConf where
  rxFifoFullThrhd : Word
  txFifoEmptyThrhd : Word
  nonfifoEn : Bool
  fifoAddrCfgEn : Bool
  rxFifoRst : Bool
  txFifoRst : Bool
  nonfifoRxThres : Word
  nonfifoTxThres : Word
  deriving DecidableEq, Repr

/-- A command slot (R27, R93). -/
structure Slot where
  byteNum : BitVec 8
  ackEn : Bool
  ackExp : Bool
  ackVal : Bool
  opCode : BitVec 3
  done : Bool
  deriving DecidableEq, Repr

/-! ### Packing (R7, R42) -/

/-- The fields a host write of `v` stores in `CTR` (R131). -/
def Ctr.ofWord (L : CtrLayout) (v : Word) : Ctr where
  sdaForceOut := L.sdaForceOut.bit v
  sclForceOut := L.sclForceOut.bit v
  sampleSclLevel := L.sampleSclLevel.bit v
  msMode := L.msMode.bit v
  transStart := L.transStart.bit v
  txLsbFirst := L.txLsbFirst.bit v
  rxLsbFirst := L.rxLsbFirst.bit v
  fsmRst := L.fsmRst.bit v

/-- The eight fields of `CTR` at their positions: the value whose write stores them (R131). -/
def Ctr.written (L : CtrLayout) (c : Ctr) : Word :=
  packFields [
    (L.sdaForceOut, wordOfBool c.sdaForceOut), (L.sclForceOut, wordOfBool c.sclForceOut),
    (L.sampleSclLevel, wordOfBool c.sampleSclLevel), (L.msMode, wordOfBool c.msMode),
    (L.transStart, wordOfBool c.transStart), (L.txLsbFirst, wordOfBool c.txLsbFirst),
    (L.rxLsbFirst, wordOfBool c.rxLsbFirst), (L.fsmRst, wordOfBool c.fsmRst)]

/-- What a read of `CTR` returns (R132): `trans_start` always reads 0. -/
def Ctr.toWord (L : CtrLayout) (c : Ctr) : Word := Ctr.written L { c with transStart := false }

/-- The stored fields of `SR` at their positions in `v` (R22). -/
def Sr.ofWord (L : SrLayout) (v : Word) : Sr where
  ackRec := L.ackRec.bit v
  slaveRw := L.slaveRw.bit v
  timeOut := L.timeOut.bit v
  arbLost := L.arbLost.bit v
  busBusy := L.busBusy.bit v
  slaveAddressed := L.slaveAddressed.bit v
  byteTrans := L.byteTrans.bit v
  sclMainStateLast := L.sclMainStateLast.get v
  sclStateLast := L.sclStateLast.get v

/-- The stored fields of `SR` at their positions, the counts 0 (R134). -/
def Sr.toWord (L : SrLayout) (r : Sr) : Word :=
  packFields [
    (L.ackRec, wordOfBool r.ackRec), (L.slaveRw, wordOfBool r.slaveRw),
    (L.timeOut, wordOfBool r.timeOut), (L.arbLost, wordOfBool r.arbLost),
    (L.busBusy, wordOfBool r.busBusy), (L.slaveAddressed, wordOfBool r.slaveAddressed),
    (L.byteTrans, wordOfBool r.byteTrans), (L.sclMainStateLast, r.sclMainStateLast),
    (L.sclStateLast, r.sclStateLast)]

/-- The fields a host write of `v` stores in `FIFO_CONF` (R135). -/
def FifoConf.ofWord (L : FifoConfLayout) (v : Word) : FifoConf where
  rxFifoFullThrhd := L.rxFifoFullThrhd.get v
  txFifoEmptyThrhd := L.txFifoEmptyThrhd.get v
  nonfifoEn := L.nonfifoEn.bit v
  fifoAddrCfgEn := L.fifoAddrCfgEn.bit v
  rxFifoRst := L.rxFifoRst.bit v
  txFifoRst := L.txFifoRst.bit v
  nonfifoRxThres := L.nonfifoRxThres.get v
  nonfifoTxThres := L.nonfifoTxThres.get v

/-- What a read of `FIFO_CONF` returns (R136). -/
def FifoConf.toWord (L : FifoConfLayout) (f : FifoConf) : Word :=
  packFields [
    (L.rxFifoFullThrhd, f.rxFifoFullThrhd), (L.txFifoEmptyThrhd, f.txFifoEmptyThrhd),
    (L.nonfifoEn, wordOfBool f.nonfifoEn), (L.fifoAddrCfgEn, wordOfBool f.fifoAddrCfgEn),
    (L.rxFifoRst, wordOfBool f.rxFifoRst), (L.txFifoRst, wordOfBool f.txFifoRst),
    (L.nonfifoRxThres, f.nonfifoRxThres), (L.nonfifoTxThres, f.nonfifoTxThres)]

/-- The slot a host write of `v` leaves (R147): pending, whatever `v[31]` is. -/
def Slot.ofWrite (L : CmdLayout) (v : Word) : Slot where
  byteNum := L.byteNumOf v
  ackEn := L.ackEn.bit v
  ackExp := L.ackExp.bit v
  ackVal := L.ackVal.bit v
  opCode := L.opCodeOf v
  done := false

/-- The word of a slot, as a read returns it (R148) and the engine fetches it (R67). -/
def Slot.toWord (L : CmdLayout) (c : Slot) : Word :=
  doneField.place (wordOfBool c.done) ||| commandWord L c.opCode c.byteNum c.ackEn c.ackExp c.ackVal

/-! ### Values after reset (R43, R270) -/

/-- `CTR` after reset: both force-out bits 1, all else 0. -/
def Ctr.atReset : Ctr where
  sdaForceOut := true
  sclForceOut := true
  sampleSclLevel := false
  msMode := false
  transStart := false
  txLsbFirst := false
  rxLsbFirst := false
  fsmRst := false

/-- The stored fields of `SR` after reset: all 0, the bus IDLE. -/
def Sr.atReset : Sr where
  ackRec := false
  slaveRw := false
  timeOut := false
  arbLost := false
  busBusy := false
  slaveAddressed := false
  byteTrans := false
  sclMainStateLast := 0
  sclStateLast := 0

/-- A slot after the first reset: done, the other fields 0 as at construction (R27, R272; log entry 13). -/
def Slot.atReset : Slot where
  byteNum := 0
  ackEn := false
  ackExp := false
  ackVal := false
  opCode := 0
  done := true

end Sys2Proof.Machine
end

