-- ==== Sys2Proof/Machine/State.lean ====
section
/-! DEFINITION. The machine's state, all plain data: the tuple of R20, the engine's cursor (R33), the parameters (R5),
and the model's own fields (pending inputs, scripted transport answers, the draw counter, the outputs). -/

namespace Sys2Proof.Machine

/-- Why the block has stopped for good. -/
inductive Fault where
  /-- `SlaveModeSelected` (R246), the only fault (R247): `WR_CTR` with the slave value sets the mark, and every later
  step stops with it. Safe: the spec gives a faulted block no further meaning. -/
  | slaveModeSelected
  deriving DecidableEq, Repr

/-- Why a step has no meaning (`refuse` of R8). All are safe: the model stops where the hardware may go on. -/
inductive Refusal where
  /-- An instruction whose meaning is not written yet; raised by an arm of `exec`. Safe. -/
  | notModelled (mnemonic : String)
  /-- An access that is not 4 bytes wide (R66); raised by the decoder. Safe. -/
  | badWidth
  /-- An access at an offset that is not a multiple of 4 (R66); raised by the decoder. Safe. -/
  | misaligned
  /-- An access at or beyond `WINDOW_BYTES` (R63); raised by the decoder. Safe. -/
  | outsideWindow
  /-- WRITE with `byte_num` = 0 whose address phase succeeds (R198); raised by `WRITE`, and by the `WR_CTR` whose pass
  meets it. Safe. -/
  | writeCountUnderflow
  deriving DecidableEq, Repr

/-- The kinds of a diagnostic (R248). -/
inductive Diag where
  | unknownOffsetRead (off : Nat)
  | unknownOffsetWrite (off : Nat) (v : Word)
  | txFifoOverflow
  | rxFifoUnderflow
  | noAck (a : BitVec 7)
  | slaveModeRequest
  deriving DecidableEq, Repr

/-- What the block puts out, in order (R79, R204, R235, R248): a transport call with its arguments and answer, an edge
of the interrupt line, a diagnostic, the value a read returns to the host. -/
inductive Output where
  | busBegin (a : BitVec 7) (d : Direction) (r : BeginResult)
  | busSend (b : Byte)
  | busRecv (b : Byte)
  | busEnd
  | irq (level : Bool)
  | diag (k : Diag)
  | reply (v : Word)
  deriving DecidableEq, Repr

/-- What the outside does to the block, one event a step (R6): a host access, or the reset operation. -/
inductive HostEvent where
  | access (a : Access)
  | reset
  deriving DecidableEq, Repr

/-- The state of one controller instance. -/
structure State where
  /-- The parameters of R5; no step changes them (log entry 2). -/
  params : Params
  /-- `CTR` (R21). -/
  ctr : Ctr
  /-- `SR`, the stored fields (R22). -/
  sr : Sr
  /-- `FIFO_CONF` (R23). -/
  fifoConf : FifoConf
  /-- `INT_RAW` (R24). -/
  intRaw : BitVec 16
  /-- `INT_ENA` (R25). -/
  intEna : BitVec 16
  /-- `INT_ST` (R26). -/
  intSt : BitVec 16
  /-- `CMD[0..15]` (R27). -/
  cmd : Vector Slot 16
  /-- `TXQ`, oldest byte first (R28, R170). -/
  txq : List Byte
  /-- `RXQ`, oldest byte first (R29, R170). -/
  rxq : List Byte
  /-- `IRQ`: true when asserted (R30). -/
  irq : Bool
  /-- `FAULT` (R31). -/
  fault : Option Fault
  /-- `cur`, the engine's slot cursor (R33); 0 outside a pass (log entry 11). -/
  cur : Fin 16
  /-- The model's own: the host's pending events, oldest first (log entry 4). -/
  host : List HostEvent
  /-- The model's own: what the transport answers to the next calls of `Bus.begin` (log entry 5). -/
  beginAnswers : List BeginResult
  /-- The model's own: what the transport answers to the next calls of `Bus.recv` (log entry 5). -/
  recvAnswers : List Byte
  /-- The model's own: how many free values have been drawn (log entry 7). -/
  draws : Nat
  /-- The model's own: what the block has put out, oldest first (log entry 12). -/
  out : List Output
  deriving DecidableEq, Repr

/-- The machine right after the first reset (R43, R270, R272), with nothing pending from outside. -/
def State.reset : State where
  params := defaultParams
  ctr := Ctr.atReset
  sr := Sr.atReset
  fifoConf := FifoConf.ofWord defaultLayout.fifoConf defaultParams.fifoConfReset
  intRaw := 0
  intEna := 0
  intSt := 0
  cmd := Vector.replicate 16 Slot.atReset
  txq := []
  rxq := []
  irq := false
  fault := none
  cur := 0
  host := []
  beginAnswers := []
  recvAnswers := []
  draws := 0
  out := []

/-- `CMD[i]`. -/
def State.slot (s : State) (i : Fin 16) : Slot := s.cmd[i]

end Sys2Proof.Machine
end

