-- ==== Sys2Proof/Machine/Operands.lean ====
section
/-! DEFINITION. The operand forms: the address byte (R96), the byte lane of `DATA` (R97), an interrupt register's low
half (R98), the events' masks (R231), the FIFO counts as Status shows them (R177). -/

namespace Sys2Proof.Machine

/-- The 7-bit address of an address byte: `b[7:1]` (R96). -/
def addressOf (b : Byte) : BitVec 7 := b.extractLsb' 1 7

/-- The direction of an address byte: `b[0]`, 0 write and 1 read (R96). -/
def directionOf (b : Byte) : Direction := if b.getLsbD 0 then .read else .write

/-- The byte a `DATA` write pushes: `v[7:0]` (R97). -/
def dataByte (v : Word) : Byte := v.setWidth 8

/-- `zext_32` of a popped byte (R97). -/
def wordOfByte (b : Byte) : Word := b.setWidth 32

/-- `v[15:0]`, what an interrupt register takes of a written value (R143). -/
def eventBits (v : Word) : BitVec 16 := v.setWidth 16

/-- `zext_32` of an interrupt register (R98). -/
def wordOfEvents (e : BitVec 16) : Word := e.setWidth 32

/-- The events of R231, in the order of the spec's list. -/
inductive Event where
  | rxFifoFull
  | txFifoEmpty
  | rxFifoOvf
  | endDetect
  | slaveTranComp
  | arbitrationLost
  | masterTranComp
  | transComplete
  | timeOut
  | transStart
  | ackErr
  | rxRecFull
  | txSendEmpty
  | sclStTo
  | sclMainStTo
  | detStart
  deriving DecidableEq, Repr

/-- The bit of an event in the three interrupt registers, as `LAYOUT` has it (R231, R98). -/
def eventBit (L : EventLayout) : Event → Nat
  | .rxFifoFull => L.rxFifoFull
  | .txFifoEmpty => L.txFifoEmpty
  | .rxFifoOvf => L.rxFifoOvf
  | .endDetect => L.endDetect
  | .slaveTranComp => L.slaveTranComp
  | .arbitrationLost => L.arbitrationLost
  | .masterTranComp => L.masterTranComp
  | .transComplete => L.transComplete
  | .timeOut => L.timeOut
  | .transStart => L.transStart
  | .ackErr => L.ackErr
  | .rxRecFull => L.rxRecFull
  | .txSendEmpty => L.txSendEmpty
  | .sclStTo => L.sclStTo
  | .sclMainStTo => L.sclMainStTo
  | .detStart => L.detStart

/-- The mask of an event (R231). -/
def eventMask (L : EventLayout) (e : Event) : BitVec 16 := 1#16 <<< eventBit L e

/-- A FIFO's count field: `len(Q)` in 6 bits (R4, R177). -/
def countField (q : List Byte) : Word := (BitVec.ofNat 6 q.length).setWidth 32

/-- What a read of `SR` returns (R134): the stored fields and the two counts. -/
def statusWord (s : State) : Word :=
  s.sr.toWord s.params.layout.sr |||
    packFields [(s.params.layout.sr.rxFifoCnt, countField s.rxq), (s.params.layout.sr.txFifoCnt, countField s.txq)]

/-- The stored fields of `SR` after a host write of `v`: the bits of `SR_WRITE_MASK` are `v`'s, the others stay
(R133). -/
def maskedStatus (p : Params) (v : Word) (r : Sr) : Sr :=
  Sr.ofWord p.layout.sr (v &&& p.srWriteMask ||| r.toWord p.layout.sr &&& ~~~p.srWriteMask)

end Sys2Proof.Machine
end

