-- ==== Sys2Proof/Machine/Ops.lean ====
section
/-! DEFINITION. The shared operations: outputs, the interrupt latch and its clear (R233, R236), entering the fault state
(R246), the FIFO operations (R171 to R176), the transport calls (R76), slots, and reset (R270). -/

namespace Sys2Proof.Machine

/-- The outcome of a step of this machine. -/
abbrev Result := Host.Outcome State Fault Refusal

/-- Go on with `f` after a next state; a fault or a refusal ends the whole step. -/
def andThen (r : Result) (f : State → Result) : Result :=
  match r with
  | .next s => f s
  | .fault e => .fault e
  | .refused e => .refused e

/-! ### Outputs -/

/-- Put out one record (R79, R248). -/
def emit (o : Output) (s : State) : State := { s with out := s.out ++ [o] }

/-- `diag(k)` (R248). -/
def emitDiag (k : Diag) (s : State) : State := emit (.diag k) s

/-- Return `v` to the host (R61). -/
def reply (v : Word) (s : State) : State := emit (.reply v) s

/-- `IRQ <- level` (R8). The line is a level: only a change of it is seen outside (R235). -/
def setLine (level : Bool) (s : State) : State :=
  if s.irq = level then s else emit (.irq level) { s with irq := level }

/-! ### The interrupt latch: an event, and its acknowledgment -/

/-- `raise_irq(e)` (R233): the raw bit always; the status bit and the line if the enable bit is 1 at this moment. -/
def raiseIrq (e : Event) (s : State) : State :=
  let mask := eventMask s.params.layout.events e
  if s.intEna.getLsbD (eventBit s.params.layout.events e) then
    setLine true { s with intRaw := s.intRaw ||| mask, intSt := s.intSt ||| mask }
  else { s with intRaw := s.intRaw ||| mask }

/-- The only acknowledgment (R236, R240): all of `INT_ST` to 0, the line deasserted. -/
def clearIrq (s : State) : State := setLine false { s with intSt := 0 }

/-- `fault F` (R246): the diagnostic, and the mark that nothing clears; nothing else. -/
def takeFault (f : Fault) (k : Diag) (s : State) : State := { emitDiag k s with fault := some f }

/-! ### FIFOs -/

/-- `TxPushHost(b)` (R171). -/
def txPushHost (b : Byte) (s : State) : State :=
  if s.txq.length = Config.fifoCap then emitDiag .txFifoOverflow s
  else { s with txq := s.txq ++ [b] }

/-- `TxPop()` (R172): the byte, and the state without it; none when `TXQ` is empty, which WRITE tests first. -/
def txPop (s : State) : Option (Byte × State) :=
  match s.txq with
  | [] => none
  | b :: q => some (b, { s with txq := q })

/-- `RxPush(b)` (R173); READ has tested that `RXQ` is not full. -/
def rxPush (b : Byte) (s : State) : State := { s with rxq := s.rxq ++ [b] }

/-- `RxPopHost()` (R174), with the value returned to the host. On an empty `RXQ` the value is a free value
(`RX_EMPTY_READ`, log entry 6). -/
def rxPopHost (s : State) : State :=
  match s.rxq with
  | [] => reply (Config.rxEmptyRead s.draws) { emitDiag .rxFifoUnderflow s with draws := s.draws + 1 }
  | b :: q => reply (wordOfByte b) { s with rxq := q }

/-- `TxReset()` (R175). -/
def txReset (s : State) : State := { s with txq := [] }

/-- `RxReset()` (R176). -/
def rxReset (s : State) : State := { s with rxq := [] }

/-! ### The transport (R76): each call is an output; the answers are inputs (R79, log entry 5) -/

/-- `Bus.begin(a, d)`: the scripted answer if there is one, else a free value. -/
def busBegin (a : BitVec 7) (d : Direction) (s : State) : BeginResult × State :=
  match s.beginAnswers with
  | r :: rs => (r, emit (.busBegin a d r) { s with beginAnswers := rs })
  | [] =>
    (Config.busBeginAnswer s.draws a d,
      emit (.busBegin a d (Config.busBeginAnswer s.draws a d)) { s with draws := s.draws + 1 })

/-- `Bus.send(b)`. -/
def busSend (b : Byte) (s : State) : State := emit (.busSend b) s

/-- `Bus.recv()`: the scripted byte if there is one, else a free value. -/
def busRecv (s : State) : Byte × State :=
  match s.recvAnswers with
  | b :: bs => (b, emit (.busRecv b) { s with recvAnswers := bs })
  | [] => (Config.busRecvByte s.draws, emit (.busRecv (Config.busRecvByte s.draws)) { s with draws := s.draws + 1 })

/-- `Bus.end()`. -/
def busEnd (s : State) : State := emit .busEnd s

/-! ### Slots -/

/-- `CMD[i] <- c`. -/
def setSlot (i : Fin 16) (c : Slot) (s : State) : State := { s with cmd := s.cmd.set i c }

/-- Program slot `i` (R147). -/
def writeSlot (i : Fin 16) (v : Word) (s : State) : State := setSlot i (Slot.ofWrite s.params.layout.cmd v) s

/-- Return the word of slot `i` to the host (R148). -/
def readSlot (i : Fin 16) (s : State) : State := reply ((s.slot i).toWord s.params.layout.cmd) s

/-- Every slot done, its other fields kept (R270). Through the list, so that Lean's kernel can compute it. -/
def allDone (cmd : Vector Slot 16) : Vector Slot 16 :=
  ⟨(cmd.toList.map (fun c => { c with done := true })).toArray, by simp⟩

/-! ### Reset -/

/-- `Reset()` (R270): the registers to their reset values, the line deasserted, every slot done with its other fields
kept, both FIFOs empty. No event, no diagnostic, no transport call. -/
def resetBlock (s : State) : State :=
  rxReset (txReset { setLine false s with
    ctr := Ctr.atReset
    sr := Sr.atReset
    fifoConf := FifoConf.ofWord s.params.layout.fifoConf s.params.fifoConfReset
    intRaw := 0
    intEna := 0
    intSt := 0
    cmd := allDone s.cmd })

end Sys2Proof.Machine
end

