-- ==== Sys2Proof/Machine/Flags.lean ====
section
/-! DEFINITION. The flags the engine writes (R34): `SR.bus_busy`, `SR.ack_rec`, `SR.byte_trans`, and in a slot `done`
and `ack_val`. The event bits are written by `raiseIrq` and `clearIrq` of Ops.lean alone. -/

namespace Sys2Proof.Machine

/-- `SR.bus_busy <- BUSY` or `IDLE` (R22). -/
def setBusBusy (busy : Bool) (s : State) : State := { s with sr := { s.sr with busBusy := busy } }

/-- `SR.ack_rec <- a` (R22). -/
def setAckRec (a : Bool) (s : State) : State := { s with sr := { s.sr with ackRec := a } }

/-- `SR.byte_trans <- 1` (R22). -/
def setByteTrans (s : State) : State := { s with sr := { s.sr with byteTrans := true } }

/-- `CMD[cur].done <- 1` (R193). -/
def markDone (s : State) : State := setSlot s.cur { s.slot s.cur with done := true } s

/-- `CMD[cur].ack_val <- ack_en AND ack_exp` (R196): from the slot's own two bits, not from the bus. -/
def setAckVal (ackEn ackExp : Bool) (s : State) : State :=
  setSlot s.cur { s.slot s.cur with ackVal := ackEn && ackExp } s

end Sys2Proof.Machine
end

