-- ==== Sys2Proof/Machine/Commands.lean ====
section
/-! DEFINITION. The commands (R195 to R202), each executed in slot `cur`: its body, then `done <- 1` whatever the body did
(R193). An abort leaves the rest of the body out and nothing else (R194). -/

namespace Sys2Proof.Machine

/-- `RESTART` (R195). -/
def execCmdRestart (s : State) : Result := .next (markDone (busEnd (setBusBusy false s)))

/-- One data byte of a WRITE (R196): sent, and `byte_trans` set. -/
def sendByte (b : Byte) (s : State) : State := setByteTrans (busSend b s)

/-- The loop of WRITE's data phase (R196), `remaining` bytes at most: an empty `TXQ` raises `tx_fifo_empty` and ends
it. -/
def sendLoop : Nat → State → State
  | 0, s => s
  | remaining + 1, s =>
    match txPop s with
    | none => raiseIrq .txFifoEmpty s
    | some (b, s') => sendLoop remaining (sendByte b s')

/-- WRITE's data phase (R196): the loop, and `tx_send_empty` after it whether it ended early or not. -/
def dataPhase (remaining : Nat) (s : State) : State := raiseIrq .txSendEmpty (sendLoop remaining s)

/-- What a not-acknowledged address does (R196, R244); the command is aborted, the bus stays as it was. -/
def addressNack (a : BitVec 7) (s : State) : State :=
  raiseIrq .ackErr (emitDiag (.noAck a) (setAckRec false s))

/-- What an acknowledged address does (R196). -/
def addressOk (ackEn ackExp : Bool) (s : State) : State :=
  raiseIrq .transStart (setAckVal ackEn ackExp (setByteTrans (setAckRec true (setBusBusy true s))))

/-- The body of WRITE (R196). With the bus IDLE its first byte is the address byte and uses one unit of `N`; an
acknowledged address with `N` = 0 has no meaning (R198). -/
def writeBody (n : BitVec 8) (ackEn ackExp : Bool) (s : State) : Result :=
  if s.sr.busBusy then .next (dataPhase n.toNat s)
  else
    match txPop s with
    | none => .next (raiseIrq .txFifoEmpty s)
    | some (b, s1) =>
      match busBegin (addressOf b) (directionOf b) s1 with
      | (.nack, s2) => .next (addressNack (addressOf b) s2)
      | (.ok, s2) =>
        if n = 0 then .refused .writeCountUnderflow
        else .next (dataPhase (n.toNat - 1) (addressOk ackEn ackExp s2))

/-- `WRITE` (R196). The written `ack_val` of its word plays no part. -/
def execCmdWrite (n : BitVec 8) (ackEn ackExp : Bool) (s : State) : Result :=
  andThen (writeBody n ackEn ackExp s) fun t => .next (markDone t)

/-- The body of READ (R199): a full `RXQ` raises `rx_fifo_ovf` and the bus is not read; else one byte. -/
def readBody (s : State) : State :=
  if s.rxq.length = Config.fifoCap then raiseIrq .rxFifoOvf s
  else
    let r := busRecv s
    let t := rxPush r.1 r.2
    if t.rxq.length = Config.fifoCap then raiseIrq .rxFifoFull t else t

/-- `READ` (R199). `byte_num` is ignored. -/
def execCmdRead (s : State) : Result := .next (markDone (readBody s))

/-- `STOP` (R200). -/
def execCmdStop (s : State) : Result :=
  .next (markDone (raiseIrq .transComplete (busEnd (setBusBusy false s))))

/-- `END` (R201). It does not end the pass. -/
def execCmdEnd (s : State) : Result := .next (markDone (raiseIrq .endDetect s))

/-- Opcode 5 (R202): no effect. -/
def execCmdUnknown5 (s : State) : Result := .next (markDone s)

/-- Opcode 6 (R202): no effect. -/
def execCmdUnknown6 (s : State) : Result := .next (markDone s)

/-- Opcode 7 (R202): no effect. -/
def execCmdUnknown7 (s : State) : Result := .next (markDone s)

end Sys2Proof.Machine
end

