-- ==== Sys2Proof/Machine/Engine.lean ====
section
/-! DEFINITION. The command engine (R190 to R194): one sweep over the slots, in ascending order, executing every pending
command. -/

namespace Sys2Proof.Machine

/-- The dispatch of R191 on the opcode of a fetched command, in slot `cur`. -/
def runCommand (c : Slot) (s : State) : Result :=
  match opcodeOf c.opCode with
  | .restart => execCmdRestart s
  | .write => execCmdWrite c.byteNum c.ackEn c.ackExp s
  | .read => execCmdRead s
  | .stop => execCmdStop s
  | .endOp => execCmdEnd s
  | .unknown5 => execCmdUnknown5 s
  | .unknown6 => execCmdUnknown6 s
  | .unknown7 => execCmdUnknown7 s

/-- Visit slot `i` (R191): a done slot is skipped; a pending one is fetched now (R74) and executed. -/
def visitSlot (i : Fin 16) (s : State) : Result :=
  if (s.slot i).done then .next { s with cur := i }
  else runCommand (s.slot i) { s with cur := i }

/-- Visit the slots of a list in turn. -/
def passFrom : List (Fin 16) → State → Result
  | [], s => .next s
  | i :: is, s => andThen (visitSlot i s) (passFrom is)

/-- `0..15` (R191). -/
def slotOrder : List (Fin 16) := [0, 1, 2, 3, 4, 5, 6, 7, 8, 9, 10, 11, 12, 13, 14, 15]

/-- `EnginePass()` (R191): slots 0 to 15 once; the cursor is gone afterwards (R33, log entry 11). -/
def enginePass (s : State) : Result := andThen (passFrom slotOrder s) fun t => .next { t with cur := 0 }

end Sys2Proof.Machine
end

