-- ==== Sys2Proof/Machine/RegisterBank.lean ====
section
/-! DEFINITION. The host's operations on the registers (R131 to R146) and on unknown offsets (R149, R150). -/

namespace Sys2Proof.Machine

/-- Whether a value written to `CTR` selects slave mode (R131, R246). -/
def selectsSlave (v : Word) (s : State) : Bool := s.params.layout.ctr.msMode.bit v != s.params.masterMode

/-- `CTR.trans_start <- 0` (R131). -/
def clearTrigger (s : State) : State := { s with ctr := { s.ctr with transStart := false } }

/-- `WR_CTR` (R131): a slave value enters the fault state and does nothing else; else the fields are stored, the engine
runs if `trans_start` is 1, and that bit is cleared before the write returns. -/
def execWrCtr (v : Word) (s : State) : Result :=
  if selectsSlave v s then .next (takeFault .slaveModeSelected .slaveModeRequest s)
  else
    let s1 := { s with ctr := Ctr.ofWord s.params.layout.ctr v }
    andThen (if s.params.layout.ctr.transStart.bit v then enginePass s1 else .next s1) fun t => .next (clearTrigger t)

/-- `RD_CTR` (R132). -/
def execRdCtr (s : State) : Result := .next (reply (s.ctr.toWord s.params.layout.ctr) s)

/-- `WR_SR` (R133). -/
def execWrSr (v : Word) (s : State) : Result := .next { s with sr := maskedStatus s.params v s.sr }

/-- `RD_SR` (R134). -/
def execRdSr (s : State) : Result := .next (reply (statusWord s) s)

/-- `WR_FIFO_CONF` (R135): the fields are stored; each reset bit written as 1 clears its FIFO once. -/
def execWrFifoConf (v : Word) (s : State) : Result :=
  let s1 := { s with fifoConf := FifoConf.ofWord s.params.layout.fifoConf v }
  let s2 := if s.params.layout.fifoConf.rxFifoRst.bit v then rxReset s1 else s1
  .next (if s.params.layout.fifoConf.txFifoRst.bit v then txReset s2 else s2)

/-- `RD_FIFO_CONF` (R136). -/
def execRdFifoConf (s : State) : Result := .next (reply (s.fifoConf.toWord s.params.layout.fifoConf) s)

/-- `WR_DATA` (R137). -/
def execWrData (v : Word) (s : State) : Result := .next (txPushHost (dataByte v) s)

/-- `RD_DATA` (R138). -/
def execRdData (s : State) : Result := .next (rxPopHost s)

/-- `RD_INT_RAW` (R139): the destructive read. -/
def execRdIntRaw (s : State) : Result := .next (reply (wordOfEvents s.intRaw) { s with intRaw := 0 })

/-- `WR_INT_RAW` (R140): ignored. -/
def execWrIntRaw (s : State) : Result := .next s

/-- `WR_INT_CLR` (R141): the written value is ignored. -/
def execWrIntClr (s : State) : Result := .next (clearIrq s)

/-- `RD_INT_CLR` (R142). -/
def execRdIntClr (s : State) : Result := .next (reply 0 s)

/-- `WR_INT_ENA` (R143): the mask alone; nothing is latched and nothing is released. -/
def execWrIntEna (v : Word) (s : State) : Result := .next { s with intEna := eventBits v }

/-- `RD_INT_ENA` (R144). -/
def execRdIntEna (s : State) : Result := .next (reply (wordOfEvents s.intEna) s)

/-- `RD_INT_ST` (R145). -/
def execRdIntSt (s : State) : Result := .next (reply (wordOfEvents s.intSt) s)

/-- `WR_INT_ST` (R146): ignored. -/
def execWrIntSt (s : State) : Result := .next s

/-- `RD_UNKNOWN` (R149): a diagnostic, and 0. -/
def execRdUnknown (off : Nat) (s : State) : Result := .next (reply 0 (emitDiag (.unknownOffsetRead off) s))

/-- `WR_UNKNOWN` (R150): a diagnostic, and nothing stored. -/
def execWrUnknown (off : Nat) (v : Word) (s : State) : Result := .next (emitDiag (.unknownOffsetWrite off v) s)

end Sys2Proof.Machine
end

