-- ==== Sys2Proof/Machine/Slots.lean ====
section
/-! DEFINITION. The host's operations on the sixteen command slots (R147, R148): one definition for each slot and kind. -/

namespace Sys2Proof.Machine

/-- `RD_CMD_0` (R148). -/
def execRdCmd0 (s : State) : Result := .next (readSlot 0 s)

/-- `WR_CMD_0` (R147). -/
def execWrCmd0 (v : Word) (s : State) : Result := .next (writeSlot 0 v s)

/-- `RD_CMD_1` (R148). -/
def execRdCmd1 (s : State) : Result := .next (readSlot 1 s)

/-- `WR_CMD_1` (R147). -/
def execWrCmd1 (v : Word) (s : State) : Result := .next (writeSlot 1 v s)

/-- `RD_CMD_2` (R148). -/
def execRdCmd2 (s : State) : Result := .next (readSlot 2 s)

/-- `WR_CMD_2` (R147). -/
def execWrCmd2 (v : Word) (s : State) : Result := .next (writeSlot 2 v s)

/-- `RD_CMD_3` (R148). -/
def execRdCmd3 (s : State) : Result := .next (readSlot 3 s)

/-- `WR_CMD_3` (R147). -/
def execWrCmd3 (v : Word) (s : State) : Result := .next (writeSlot 3 v s)

/-- `RD_CMD_4` (R148). -/
def execRdCmd4 (s : State) : Result := .next (readSlot 4 s)

/-- `WR_CMD_4` (R147). -/
def execWrCmd4 (v : Word) (s : State) : Result := .next (writeSlot 4 v s)

/-- `RD_CMD_5` (R148). -/
def execRdCmd5 (s : State) : Result := .next (readSlot 5 s)

/-- `WR_CMD_5` (R147). -/
def execWrCmd5 (v : Word) (s : State) : Result := .next (writeSlot 5 v s)

/-- `RD_CMD_6` (R148). -/
def execRdCmd6 (s : State) : Result := .next (readSlot 6 s)

/-- `WR_CMD_6` (R147). -/
def execWrCmd6 (v : Word) (s : State) : Result := .next (writeSlot 6 v s)

/-- `RD_CMD_7` (R148). -/
def execRdCmd7 (s : State) : Result := .next (readSlot 7 s)

/-- `WR_CMD_7` (R147). -/
def execWrCmd7 (v : Word) (s : State) : Result := .next (writeSlot 7 v s)

/-- `RD_CMD_8` (R148). -/
def execRdCmd8 (s : State) : Result := .next (readSlot 8 s)

/-- `WR_CMD_8` (R147). -/
def execWrCmd8 (v : Word) (s : State) : Result := .next (writeSlot 8 v s)

/-- `RD_CMD_9` (R148). -/
def execRdCmd9 (s : State) : Result := .next (readSlot 9 s)

/-- `WR_CMD_9` (R147). -/
def execWrCmd9 (v : Word) (s : State) : Result := .next (writeSlot 9 v s)

/-- `RD_CMD_10` (R148). -/
def execRdCmd10 (s : State) : Result := .next (readSlot 10 s)

/-- `WR_CMD_10` (R147). -/
def execWrCmd10 (v : Word) (s : State) : Result := .next (writeSlot 10 v s)

/-- `RD_CMD_11` (R148). -/
def execRdCmd11 (s : State) : Result := .next (readSlot 11 s)

/-- `WR_CMD_11` (R147). -/
def execWrCmd11 (v : Word) (s : State) : Result := .next (writeSlot 11 v s)

/-- `RD_CMD_12` (R148). -/
def execRdCmd12 (s : State) : Result := .next (readSlot 12 s)

/-- `WR_CMD_12` (R147). -/
def execWrCmd12 (v : Word) (s : State) : Result := .next (writeSlot 12 v s)

/-- `RD_CMD_13` (R148). -/
def execRdCmd13 (s : State) : Result := .next (readSlot 13 s)

/-- `WR_CMD_13` (R147). -/
def execWrCmd13 (v : Word) (s : State) : Result := .next (writeSlot 13 v s)

/-- `RD_CMD_14` (R148). -/
def execRdCmd14 (s : State) : Result := .next (readSlot 14 s)

/-- `WR_CMD_14` (R147). -/
def execWrCmd14 (v : Word) (s : State) : Result := .next (writeSlot 14 v s)

/-- `RD_CMD_15` (R148). -/
def execRdCmd15 (s : State) : Result := .next (readSlot 15 s)

/-- `WR_CMD_15` (R147). -/
def execWrCmd15 (v : Word) (s : State) : Result := .next (writeSlot 15 v s)

end Sys2Proof.Machine
end

