-- ==== Sys2Proof/Machine/Dispatch.lean ====
section
/-! DEFINITION. `exec`: one arm per instruction of the opcode table, each one call of its meaning. -/

namespace Sys2Proof.Machine

def exec (i : Instr) (s : State) : Host.Outcome State Fault Refusal :=
  match i with
  | .rdCtr => Sys2Proof.Machine.execRdCtr s
  | .wrCtr v => Sys2Proof.Machine.execWrCtr v s
  | .rdSr => Sys2Proof.Machine.execRdSr s
  | .wrSr v => Sys2Proof.Machine.execWrSr v s
  | .rdFifoConf => Sys2Proof.Machine.execRdFifoConf s
  | .wrFifoConf v => Sys2Proof.Machine.execWrFifoConf v s
  | .rdData => Sys2Proof.Machine.execRdData s
  | .wrData v => Sys2Proof.Machine.execWrData v s
  | .rdIntRaw => Sys2Proof.Machine.execRdIntRaw s
  | .wrIntRaw _ => Sys2Proof.Machine.execWrIntRaw s
  | .rdIntClr => Sys2Proof.Machine.execRdIntClr s
  | .wrIntClr _ => Sys2Proof.Machine.execWrIntClr s
  | .rdIntEna => Sys2Proof.Machine.execRdIntEna s
  | .wrIntEna v => Sys2Proof.Machine.execWrIntEna v s
  | .rdIntSt => Sys2Proof.Machine.execRdIntSt s
  | .wrIntSt _ => Sys2Proof.Machine.execWrIntSt s
  | .rdCmd0 => Sys2Proof.Machine.execRdCmd0 s
  | .wrCmd0 v => Sys2Proof.Machine.execWrCmd0 v s
  | .rdCmd1 => Sys2Proof.Machine.execRdCmd1 s
  | .wrCmd1 v => Sys2Proof.Machine.execWrCmd1 v s
  | .rdCmd2 => Sys2Proof.Machine.execRdCmd2 s
  | .wrCmd2 v => Sys2Proof.Machine.execWrCmd2 v s
  | .rdCmd3 => Sys2Proof.Machine.execRdCmd3 s
  | .wrCmd3 v => Sys2Proof.Machine.execWrCmd3 v s
  | .rdCmd4 => Sys2Proof.Machine.execRdCmd4 s
  | .wrCmd4 v => Sys2Proof.Machine.execWrCmd4 v s
  | .rdCmd5 => Sys2Proof.Machine.execRdCmd5 s
  | .wrCmd5 v => Sys2Proof.Machine.execWrCmd5 v s
  | .rdCmd6 => Sys2Proof.Machine.execRdCmd6 s
  | .wrCmd6 v => Sys2Proof.Machine.execWrCmd6 v s
  | .rdCmd7 => Sys2Proof.Machine.execRdCmd7 s
  | .wrCmd7 v => Sys2Proof.Machine.execWrCmd7 v s
  | .rdCmd8 => Sys2Proof.Machine.execRdCmd8 s
  | .wrCmd8 v => Sys2Proof.Machine.execWrCmd8 v s
  | .rdCmd9 => Sys2Proof.Machine.execRdCmd9 s
  | .wrCmd9 v => Sys2Proof.Machine.execWrCmd9 v s
  | .rdCmd10 => Sys2Proof.Machine.execRdCmd10 s
  | .wrCmd10 v => Sys2Proof.Machine.execWrCmd10 v s
  | .rdCmd11 => Sys2Proof.Machine.execRdCmd11 s
  | .wrCmd11 v => Sys2Proof.Machine.execWrCmd11 v s
  | .rdCmd12 => Sys2Proof.Machine.execRdCmd12 s
  | .wrCmd12 v => Sys2Proof.Machine.execWrCmd12 v s
  | .rdCmd13 => Sys2Proof.Machine.execRdCmd13 s
  | .wrCmd13 v => Sys2Proof.Machine.execWrCmd13 v s
  | .rdCmd14 => Sys2Proof.Machine.execRdCmd14 s
  | .wrCmd14 v => Sys2Proof.Machine.execWrCmd14 v s
  | .rdCmd15 => Sys2Proof.Machine.execRdCmd15 s
  | .wrCmd15 v => Sys2Proof.Machine.execWrCmd15 v s
  | .rdUnknown off => Sys2Proof.Machine.execRdUnknown off s
  | .wrUnknown off v => Sys2Proof.Machine.execWrUnknown off v s
  | .cmdRestart _ _ _ _ => Sys2Proof.Machine.execCmdRestart s
  | .cmdWrite n en ex _ => Sys2Proof.Machine.execCmdWrite n en ex s
  | .cmdRead _ _ _ _ => Sys2Proof.Machine.execCmdRead s
  | .cmdStop _ _ _ _ => Sys2Proof.Machine.execCmdStop s
  | .cmdEnd _ _ _ _ => Sys2Proof.Machine.execCmdEnd s
  | .cmdUnknown5 _ _ _ _ => Sys2Proof.Machine.execCmdUnknown5 s
  | .cmdUnknown6 _ _ _ _ => Sys2Proof.Machine.execCmdUnknown6 s
  | .cmdUnknown7 _ _ _ _ => Sys2Proof.Machine.execCmdUnknown7 s

end Sys2Proof.Machine
end

