-- ==== Sys2Proof/Machine/HostPort.lean ====
section
/-! DEFINITION. One step of the machine: the next event from outside, served as R92, R130 and R271 say; and how a number of
the opcode table is made the next thing to run. -/

namespace Sys2Proof.Machine

/-- The refusal of an access that the decoder gives no meaning (R63, R66). -/
def refusalOf : DecodeError → Refusal
  | .badWidth => .badWidth
  | .misaligned => .misaligned
  | .outsideWindow => .outsideWindow

/-- Serve one host access (R92, R130). -/
def serveAccess (a : Access) (s : State) : Result :=
  match decode s.params (.mmio a) with
  | .ok i => exec i s
  | .error e => .refused (refusalOf e)

/-- One step (R6). A faulted block has no further step (R130, R246). With nothing pending from outside nothing happens
(log entry 4). Else the oldest event is taken: an access, or the reset operation. -/
def serveHost (s : State) : Result :=
  match s.fault with
  | some f => .fault f
  | none =>
    match s.host with
    | [] => .next s
    | .reset :: rest => .next (resetBlock { s with host := rest })
    | .access a :: rest => serveAccess a { s with host := rest }

/-- The `CTR` value that triggers the engine and leaves the other fields of `CTR` as they are (R131). -/
def triggerWord (s : State) : Word :=
  Ctr.written s.params.layout.ctr { s.ctr with msMode := s.params.masterMode, transStart := true }

/-- The slots with the command `c` pending in slot 0 and every other slot done. -/
def soleCommand (c : Slot) (cmd : Vector Slot 16) : Vector Slot 16 := (allDone cmd).set 0 { c with done := false }

/-- Make the instruction with number `w` of the opcode table the next thing to run (log entry 4). A host access is put in
front of the pending events; a command is put in slot 0 as the only pending one, and a `CTR` write that triggers the
engine in front of the pending events. The table's words are under the default `LAYOUT`. -/
def placeTableWord (nbits w : Nat) (s : State) : State :=
  match tableEncoded nbits w with
  | .mmio a => { s with host := .access a :: s.host }
  | .cmd cw =>
    { s with
      cmd := soleCommand (Slot.ofWrite defaultLayout.cmd cw) s.cmd
      host := .access (.write 0x04 (bytesOfWord (triggerWord s))) :: s.host }

end Sys2Proof.Machine
end

