-- ==== Sys2Proof/Machine/Step.lean ====
section
/-! DEFINITION. The fixed names of a step: `step`, and `State.withFetchWord`. -/

namespace Sys2Proof.Machine

/-- One step of the machine (R6): one host read, one host write with the pass it triggers, or one reset. -/
def step (s : State) : Host.Outcome State Fault Refusal := serveHost s

/-- `s` with the instruction of the opcode table's number `w` made the next thing to run. -/
def State.withFetchWord (s : State) (nbits w : Nat) : State := placeTableWord nbits w s

end Sys2Proof.Machine
end

