-- ==== Sys2Proof/Safety.lean ====
section
/-! DEFINITION. The terms claims are stated in: the invariants of a run, what counts as a safe run, projections of the
outputs, and closed forms of what an event and a WRITE's data phase do, written from the rules and not from the
operations. -/

namespace Sys2Proof.Machine

/-! ### Invariants (10_state.md §6) -/

/-- Both FIFOs hold at most 32 bytes (R28, R29, R38). -/
def FifosBounded (s : State) : Prop := s.txq.length ≤ 32 ∧ s.rxq.length ≤ 32

/-- The line is asserted exactly when a status bit is set (R41). -/
def LineFollowsStatus (s : State) : Prop := s.irq = true ↔ s.intSt ≠ 0

/-- The eight events that nothing raises (R232). -/
def unraisedEvents : List Event :=
  [.slaveTranComp, .arbitrationLost, .masterTranComp, .timeOut, .rxRecFull, .sclStTo, .sclMainStTo, .detStart]

/-- The bits of the events that nothing raises are 0 in raw and status (R232). -/
def UnraisedEventsClear (s : State) : Prop :=
  ∀ e ∈ unraisedEvents, s.intRaw.getLsbD (eventBit s.params.layout.events e) = false ∧
    s.intSt.getLsbD (eventBit s.params.layout.events e) = false

/-- A stored field whose width `LAYOUT` fixes has a value of that width (R21 to R23, D2). -/
def FieldsFit (s : State) : Prop :=
  (∀ p ∈ [(s.params.layout.sr.sclMainStateLast, s.sr.sclMainStateLast),
      (s.params.layout.sr.sclStateLast, s.sr.sclStateLast)], p.2 &&& onesWord p.1.width = p.2) ∧
  (∀ p ∈ [(s.params.layout.fifoConf.rxFifoFullThrhd, s.fifoConf.rxFifoFullThrhd),
      (s.params.layout.fifoConf.txFifoEmptyThrhd, s.fifoConf.txFifoEmptyThrhd),
      (s.params.layout.fifoConf.nonfifoRxThres, s.fifoConf.nonfifoRxThres),
      (s.params.layout.fifoConf.nonfifoTxThres, s.fifoConf.nonfifoTxThres)], p.2 &&& onesWord p.1.width = p.2)

/-- No pass is under way: the cursor rests (R33) and `trans_start` reads 0 (R21). -/
def BetweenPasses (s : State) : Prop := s.cur = 0 ∧ s.ctr.transStart = false

/-- Every invariant of a state between steps, the parameters' admissibility (R5) among them. -/
structure Inv (s : State) : Prop where
  fifos : FifosBounded s
  line : LineFollowsStatus s
  unraised : UnraisedEventsClear s
  fieldsFit : FieldsFit s
  idle : BetweenPasses s
  params : s.params.wf = true

/-- All 16 done flags are 1 (R192). -/
def AllDone (s : State) : Prop := ∀ i : Fin 16, (s.slot i).done = true

/-- No pending slot is a WRITE with `byte_num` = 0: enough for a pass never to meet the case of R198. -/
def NoZeroCountWrite (s : State) : Prop :=
  ∀ i : Fin 16, (s.slot i).done = false → (s.slot i).opCode = 1 → (s.slot i).byteNum ≠ 0

/-- A state a run may end in: the fault mark is not set (R31: a state with `FAULT` set is not a final state). -/
def Safe (s : State) : Prop := s.fault = none

/-- The reset state with everything pending that the outside will do: host events and scripted transport answers. -/
def fromReset (events : List HostEvent) (begins : List BeginResult) (recvs : List Byte) : State :=
  { State.reset with host := events, beginAnswers := begins, recvAnswers := recvs }

/-! ### Outputs -/

/-- A call of the bus transport (R76). -/
def Output.isBusCall : Output → Bool
  | .busBegin _ _ _ | .busSend _ | .busRecv _ | .busEnd => true
  | .irq _ | .diag _ | .reply _ => false

/-- A call of `Bus.begin`. -/
def Output.isBegin : Output → Bool
  | .busBegin _ _ _ => true
  | .busSend _ | .busRecv _ | .busEnd | .irq _ | .diag _ | .reply _ => false

/-- A call of `Bus.send`. -/
def Output.isSend : Output → Bool
  | .busSend _ => true
  | .busBegin _ _ _ | .busRecv _ | .busEnd | .irq _ | .diag _ | .reply _ => false

/-- A call of `Bus.recv`. -/
def Output.isRecv : Output → Bool
  | .busRecv _ => true
  | .busBegin _ _ _ | .busSend _ | .busEnd | .irq _ | .diag _ | .reply _ => false

/-- A call of `Bus.end`. -/
def Output.isEnd : Output → Bool
  | .busEnd => true
  | .busBegin _ _ _ | .busSend _ | .busRecv _ | .irq _ | .diag _ | .reply _ => false

/-- The byte a transport call takes to the bus: the address byte put together again, or a data byte (R96, R180). -/
def Output.byteToBus : Output → Option Byte
  | .busBegin a d _ => some (a ++ (match d with | .write => 0#1 | .read => 1#1))
  | .busSend b => some b
  | .busRecv _ | .busEnd | .irq _ | .diag _ | .reply _ => none

/-- The byte a transport call brings from the bus. -/
def Output.byteFromBus : Output → Option Byte
  | .busRecv b => some b
  | .busBegin _ _ _ | .busSend _ | .busEnd | .irq _ | .diag _ | .reply _ => none

/-- The transport trace so far: the calls, in order (R79). -/
def State.busTrace (s : State) : List Output := s.out.filter Output.isBusCall

/-! ### The sixteen slot operations, and a written `CTR` -/

/-- The read of slot `i`, one of the sixteen instructions `RD_CMD_0` to `RD_CMD_15`. -/
def rdCmd (i : Fin 16) : Instr :=
  #v[Instr.rdCmd0, .rdCmd1, .rdCmd2, .rdCmd3, .rdCmd4, .rdCmd5, .rdCmd6, .rdCmd7,
    .rdCmd8, .rdCmd9, .rdCmd10, .rdCmd11, .rdCmd12, .rdCmd13, .rdCmd14, .rdCmd15][i]

/-- The write of slot `i`, one of the sixteen instructions `WR_CMD_0` to `WR_CMD_15`. -/
def wrCmd (i : Fin 16) (v : Word) : Instr :=
  #v[Instr.wrCmd0 v, .wrCmd1 v, .wrCmd2 v, .wrCmd3 v, .wrCmd4 v, .wrCmd5 v, .wrCmd6 v, .wrCmd7 v,
    .wrCmd8 v, .wrCmd9 v, .wrCmd10 v, .wrCmd11 v, .wrCmd12 v, .wrCmd13 v, .wrCmd14 v, .wrCmd15 v][i]

/-- `CTR` after a write of `v` has completed (R131): seven fields from `v`, `trans_start` 0. -/
def controlFields (L : CtrLayout) (v : Word) : Ctr where
  sdaForceOut := v.getLsbD L.sdaForceOut.lo
  sclForceOut := v.getLsbD L.sclForceOut.lo
  sampleSclLevel := v.getLsbD L.sampleSclLevel.lo
  msMode := v.getLsbD L.msMode.lo
  transStart := false
  txLsbFirst := v.getLsbD L.txLsbFirst.lo
  rxLsbFirst := v.getLsbD L.rxLsbFirst.lo
  fsmRst := v.getLsbD L.fsmRst.lo

/-- A bit of a register that belongs to none of its fields (R42). -/
def Unspecified (fields : List BitField) (k : Nat) : Prop := ∀ f ∈ fields, k < f.lo ∨ f.lo + f.width ≤ k

/-! ### Closed forms -/

/-- The bit of an event in the state's interrupt registers (R231). -/
def State.bitOf (s : State) (e : Event) : Nat := eventBit s.params.layout.events e

/-- The state after the event with bit `k` is raised (R233): the raw bit set; if `INT_ENA[k]` is 1 also the status bit and
the line, whose rise is seen outside when it was low; nothing else. -/
def afterEvent (k : Nat) (s : State) : State :=
  { s with
    intRaw := s.intRaw ||| 1#16 <<< k
    intSt := if s.intEna.getLsbD k then s.intSt ||| 1#16 <<< k else s.intSt
    irq := s.irq || s.intEna.getLsbD k
    out := s.out ++ (if s.intEna.getLsbD k && !s.irq then [.irq true] else []) }

/-- The state after the loop of a WRITE's data phase with `r` bytes to take (R196): the oldest `min r len(TXQ)` bytes
leave `TXQ` and are sent in order, `byte_trans` is set if there was one, and `tx_fifo_empty` is raised if there
were too few. -/
def afterSends (r : Nat) (s : State) : State :=
  let t := { s with
    txq := s.txq.drop r
    out := s.out ++ (s.txq.take r).map .busSend
    sr := { s.sr with byteTrans := s.sr.byteTrans || !(s.txq.take r).isEmpty } }
  if s.txq.length < r then afterEvent (s.bitOf .txFifoEmpty) t else t

/-- The state with the slot under the cursor marked done (R193). -/
def withDone (s : State) : State := { s with cmd := s.cmd.set s.cur { s.slot s.cur with done := true } }

/-- What a pass never touches (R203): `CTR`, `FIFO_CONF`, `INT_ENA`, the parameters, the fault mark, the pending host
events, and the Status fields the engine does not write. -/
structure EngineKeeps (s t : State) : Prop where
  params : t.params = s.params
  ctr : t.ctr = s.ctr
  fifoConf : t.fifoConf = s.fifoConf
  intEna : t.intEna = s.intEna
  fault : t.fault = s.fault
  host : t.host = s.host
  slaveRw : t.sr.slaveRw = s.sr.slaveRw
  timeOut : t.sr.timeOut = s.sr.timeOut
  arbLost : t.sr.arbLost = s.sr.arbLost
  slaveAddressed : t.sr.slaveAddressed = s.sr.slaveAddressed
  sclMainStateLast : t.sr.sclMainStateLast = s.sr.sclMainStateLast
  sclStateLast : t.sr.sclStateLast = s.sr.sclStateLast
  rawBits : s.intRaw &&& t.intRaw = s.intRaw
  statusBits : s.intSt &&& t.intSt = s.intSt
  line : s.irq = true → t.irq = true
  byteTrans : s.sr.byteTrans = true → t.sr.byteTrans = true
  slotFields : ∀ i : Fin 16, (t.slot i).byteNum = (s.slot i).byteNum ∧ (t.slot i).ackEn = (s.slot i).ackEn ∧
    (t.slot i).ackExp = (s.slot i).ackExp ∧ (t.slot i).opCode = (s.slot i).opCode ∧
    ((s.slot i).done = true → t.slot i = s.slot i)

end Sys2Proof.Machine
end

