-- ==== Sys2Proof/Certificates/Slice0/Obligations.lean ====
section
/-! DEFINITION. The statements for the provers, each a numbered rule of the spec or a whole-machine property that
follows from rules; OBLIGATIONS.json lists them. In all of them `out` is the model's record of what the block puts out
(log entry 12): values returned, transport calls, edges of the line, diagnostics. -/

open Sys2Proof Sys2Proof.Machine

/-- For all admissible parameters (any LAYOUT, any window) and every instruction that is well-formed under them,
host access or command, with every operand value, decoding its encoding answers exactly that instruction.
(R91, R93, R94, R101, R103, R5.) -/
def Obligations.DecodeOfEncodeIsIdentity : Prop :=
  ∀ (p : Params) (i : Instr), p.wf = true → i.wf p.windowBytes = true →
    decode p (encode p.layout.cmd i) = .ok i

/-- Under every admissible LAYOUT every 32-bit word decodes to a command, and encoding that command gives the word
with every bit outside op_code, ack_val, ack_exp, ack_en and byte_num zero. Under the default LAYOUT these are
bits 13:0: which bits they are is no rule of the document but the default of the parameter LAYOUT, the spec's
decisions D1 and D2 (log entry 1, PRESUMED). That the bits of no field are dropped is D32 (log entry 19).
(R93, R94, R99, R100, 92_eei_decisions.md D1, D2, D32.) -/
def Obligations.CommandWordsAgreeUpToUnspecifiedBits : Prop :=
  (∀ (L : Layout) (w : Word), L.wf = true →
    encode L.cmd (decodeCommand L.cmd w) = .cmd (w &&& definedBits L.cmd.fields)) ∧
  (∀ w : Word, encode defaultLayout.cmd (decodeCommand defaultLayout.cmd w) = .cmd (w &&& 0x00003FFF))

/-- For every window and every offset that is a multiple of 4 and inside it, a 4-byte read and a 4-byte write decode
(none is illegal), and where the offset is not in the register map they decode to RD_UNKNOWN and WR_UNKNOWN of
that offset and value.
(R101.) -/
def Obligations.AlignedOffsetsInWindowAreServed : Prop :=
  ∀ (window off : Nat) (v : Word), off % 4 = 0 → off < window →
    (∃ i, decodeAccess window (.read off 4) = .ok i) ∧
    (∃ i, decodeAccess window (.write off (bytesOfWord v)) = .ok i) ∧
    (isMapped off = false →
      decodeAccess window (.read off 4) = .ok (.rdUnknown off) ∧
      decodeAccess window (.write off (bytesOfWord v)) = .ok (.wrUnknown off v))

/-- Read and write at 0x04, 0x08, 0x18, 0x1c, 0x20, 0x24, 0x28, 0x2c select the operations of CTR, SR, FIFO_CONF,
DATA, INT_RAW, INT_CLR, INT_ENA, INT_ST, and at 0x58 + 4*i those of slot i, for every i of 0 to 15.
(R62, R91.) -/
def Obligations.RegisterMapSelectsOperations : Prop :=
  ∀ v : Word,
    (readInstr 0x04 = .rdCtr ∧ writeInstr 0x04 v = .wrCtr v) ∧
    (readInstr 0x08 = .rdSr ∧ writeInstr 0x08 v = .wrSr v) ∧
    (readInstr 0x18 = .rdFifoConf ∧ writeInstr 0x18 v = .wrFifoConf v) ∧
    (readInstr 0x1c = .rdData ∧ writeInstr 0x1c v = .wrData v) ∧
    (readInstr 0x20 = .rdIntRaw ∧ writeInstr 0x20 v = .wrIntRaw v) ∧
    (readInstr 0x24 = .rdIntClr ∧ writeInstr 0x24 v = .wrIntClr v) ∧
    (readInstr 0x28 = .rdIntEna ∧ writeInstr 0x28 v = .wrIntEna v) ∧
    (readInstr 0x2c = .rdIntSt ∧ writeInstr 0x2c v = .wrIntSt v) ∧
    (∀ i : Fin 16, readInstr (0x58 + 4 * i.val) = rdCmd i ∧ writeInstr (0x58 + 4 * i.val) v = wrCmd i v)

/-- The bytes of a value are its bits 7:0, 15:8, 23:16, 31:24 in wire order and make the value again; four bytes
make the value whose fields they are; a write of any other number of bytes makes none. That any other number
makes none is the spec's decision D6 (log entry 10, DEDUCED).
(R65, R66, 20_memory.md section 3, 92_eei_decisions.md D6.) -/
def Obligations.RegisterBytesAreLittleEndian : Prop :=
  (∀ v : Word, bytesOfWord v =
      [v.extractLsb' 0 8, v.extractLsb' 8 8, v.extractLsb' 16 8, v.extractLsb' 24 8] ∧
    wordOfBytes (bytesOfWord v) = some v) ∧
  (∀ b0 b1 b2 b3 : Byte, ∃ v : Word, wordOfBytes [b0, b1, b2, b3] = some v ∧
    v.extractLsb' 0 8 = b0 ∧ v.extractLsb' 8 8 = b1 ∧ v.extractLsb' 16 8 = b2 ∧ v.extractLsb' 24 8 = b3) ∧
  (∀ data : List Byte, data.length ≠ 4 → wordOfBytes data = none)

/-- Under the default LAYOUT the words of R105 decode to RESTART, WRITE n=2, WRITE n=1 ack_en, WRITE n=3 ack_en
ack_exp, READ n=1, STOP, END and opcode 7, pending or done; the address bytes 0x10, 0xA1 and 0xFF split as R96
says. R105 gives the whole words under the default LAYOUT only, which is the spec's decisions D1 and D2 (log
entry 1, PRESUMED). The split of an address byte is D24 (log entry 19).
(R93, R96, R103, R105, 92_eei_decisions.md D1, D2, D24.) -/
def Obligations.SpecExampleWordsDecode : Prop :=
  decodeCommand defaultLayout.cmd 0x00000000 = .cmdRestart 0 false false false ∧
  decodeCommand defaultLayout.cmd 0x00000802 = .cmdWrite 2 false false false ∧
  decodeCommand defaultLayout.cmd 0x00000901 = .cmdWrite 1 true false false ∧
  decodeCommand defaultLayout.cmd 0x80000F03 = .cmdWrite 3 true true true ∧
  decodeCommand defaultLayout.cmd 0x00001001 = .cmdRead 1 false false false ∧
  decodeCommand defaultLayout.cmd 0x80001800 = .cmdStop 0 false false false ∧
  decodeCommand defaultLayout.cmd 0x00002000 = .cmdEnd 0 false false false ∧
  decodeCommand defaultLayout.cmd 0x00003800 = .cmdUnknown7 0 false false false ∧
  (addressOf 0x10 = 0x08 ∧ directionOf 0x10 = .write) ∧
  (addressOf 0xA1 = 0x50 ∧ directionOf 0xA1 = .read) ∧
  (addressOf 0xFF = 0x7F ∧ directionOf 0xFF = .read)

/-- In a state with no fault mark whose oldest pending event is an access that decodes to i under the state's
parameters, step is exec of i at the state without that event. With no pending event, step answers the same
state. The list of pending events and the idle step are the model's choice (log entry 4).
(R92, R130, R91, R6.) -/
def Obligations.StepRunsDecodedAccess : Prop :=
  (∀ (s : State) (a : Access) (rest : List HostEvent) (i : Instr),
    s.fault = none → s.host = .access a :: rest → decode s.params (.mmio a) = .ok i →
    step s = exec i { s with host := rest }) ∧
  (∀ s : State, s.fault = none → s.host = [] → step s = .next s)

/-- With no fault mark, a step whose oldest event is a read of other than 4 bytes or a write of other than 4 bytes
is refused as badWidth; a 4-byte access at an offset that is no multiple of 4 as misaligned; an aligned one at
or beyond the window as outsideWindow. That such accesses are refused is the spec's decisions D6 and D33 (log
entry 10); which name is answered when several of the checks fail together is the model's own order (log entry
20, DESIGN CHOICE): R92 gives none.
(R63, R66, R92, R102, 92_eei_decisions.md D6, D33.) -/
def Obligations.StepRefusesInadmissibleAccess : Prop :=
  ∀ (s : State) (rest : List HostEvent) (off width : Nat) (data : List Byte) (v : Word), s.fault = none →
    (s.host = .access (.read off width) :: rest → width ≠ 4 → step s = .refused .badWidth) ∧
    (s.host = .access (.write off data) :: rest → data.length ≠ 4 → step s = .refused .badWidth) ∧
    (s.host = .access (.read off 4) :: rest ∨ s.host = .access (.write off (bytesOfWord v)) :: rest →
      (off % 4 ≠ 0 → step s = .refused .misaligned) ∧
      (off % 4 = 0 → s.params.windowBytes ≤ off → step s = .refused .outsideWindow))

/-- A step on a pending reset, with no fault mark, sets CTR to 0 but for the two force-out bits, SR to 0, FIFO_CONF
to FIFO_CONF_RESET, the three interrupt registers and the line to 0, every done bit to 1 with the other slot
fields kept, both FIFOs to empty; it emits nothing but the fall of a line that was high, calls no transport, and
changes nothing else. That the line falls, that slots keep their other fields and that FIFO_CONF takes a
parameter are the spec's decisions D10 (log entry 14), D9 (log entry 13) and D8; that no transport call is made
is its decision D23 (log entry 19).
(R270, R273, 92_eei_decisions.md D8, D9, D10, D23.) -/
def Obligations.ResetOperationSetsResetValues : Prop :=
  ∀ (s : State) (rest : List HostEvent), s.fault = none → s.host = .reset :: rest →
    ∃ t, step s = .next t ∧
      (∀ i : Fin 16, t.slot i = { s.slot i with done := true }) ∧
      t = { s with
        host := rest
        ctr := { sdaForceOut := true, sclForceOut := true, sampleSclLevel := false, msMode := false,
                 transStart := false, txLsbFirst := false, rxLsbFirst := false, fsmRst := false }
        sr := { ackRec := false, slaveRw := false, timeOut := false, arbLost := false, busBusy := false,
                slaveAddressed := false, byteTrans := false, sclMainStateLast := 0, sclStateLast := 0 }
        fifoConf := FifoConf.ofWord s.params.layout.fifoConf s.params.fifoConfReset
        intRaw := 0
        intEna := 0
        intSt := 0
        irq := false
        cmd := t.cmd
        txq := []
        rxq := []
        out := s.out ++ (if s.irq then [.irq false] else []) }

/-- In State.reset, CTR reads 0x00000003, SR 0, FIFO_CONF FIFO_CONF_RESET, the interrupt registers 0, every slot
0x80000000, both FIFOs are empty, the line is low, there is no fault mark, and every invariant holds. That CTR
is the word 0x00000003 rests on the default LAYOUT (log entry 1), the slots' fields other than done on D9 (log
entry 13), the low line on D10 (log entry 14); the parameters' defaults and the cursor's value are the model's
(log entries 2 and 11). FIFO_CONF's reset value is the parameter of D8.
(R43, R272, R41, R38, 92_eei_decisions.md D1, D8, D9, D10.) -/
def Obligations.ResetStateIsAsSpecified : Prop :=
  State.reset.ctr.toWord State.reset.params.layout.ctr = 0x00000003 ∧ statusWord State.reset = 0 ∧
  State.reset.fifoConf.toWord State.reset.params.layout.fifoConf = State.reset.params.fifoConfReset ∧
  State.reset.intRaw = 0 ∧ State.reset.intEna = 0 ∧ State.reset.intSt = 0 ∧
  (∀ i : Fin 16, (State.reset.slot i).toWord State.reset.params.layout.cmd = 0x80000000) ∧
  State.reset.txq = [] ∧ State.reset.rxq = [] ∧ State.reset.irq = false ∧ State.reset.fault = none ∧
  Inv State.reset

/-- For every value whose ms_mode bit differs from MASTER_MODE_VALUE, WR_CTR answers the same state but for the
fault mark and the diagnostic SlaveModeRequest; every step from any state that carries the mark, whatever is
pending, a reset too, stops with the fault. (That the entry is a next state with the mark is log entry 8.) That
every such write faults is the spec's decision D5. The diagnostic channel is D27 (log entry 19).
(R246, R130, 92_eei_decisions.md D5, D27.) -/
def Obligations.SlaveModeRequestFaultsForEver : Prop :=
  (∀ (v : Word) (s : State), v.getLsbD s.params.layout.ctr.msMode.lo ≠ s.params.masterMode →
    exec (.wrCtr v) s =
      .next { s with fault := some .slaveModeSelected, out := s.out ++ [.diag .slaveModeRequest] }) ∧
  (∀ s : State, s.fault = some .slaveModeSelected → step s = .fault .slaveModeSelected)

/-- With no fault mark, an admitted read yields a next state whose last output is the value returned. An admitted
write yields a next state, except that a CTR write with the master value and the start bit may be refused as
writeCountUnderflow, and only if some slot is pending with op_code 1 and byte_num 0, the case of R198; a slave
value yields the next state that carries the fault mark. The refused case and the fault are the spec's decisions
D19 (log entry 9) and D5; that entering the fault is a next state with the mark is log entry 8.
(R151, R82, R130, R198, 92_eei_decisions.md D5, D19.) -/
def Obligations.AdmittedAccessYieldsNextState : Prop :=
  ∀ (s : State) (rest : List HostEvent) (off : Nat) (v : Word), s.fault = none → off % 4 = 0 →
    off < s.params.windowBytes →
    (s.host = .access (.read off 4) :: rest →
      ∃ t w, step s = .next t ∧ t.out.getLast? = some (.reply w)) ∧
    (s.host = .access (.write off (bytesOfWord v)) :: rest →
      (∃ t, step s = .next t) ∨
      (off = 0x04 ∧ v.getLsbD s.params.layout.ctr.msMode.lo = s.params.masterMode ∧
        v.getLsbD s.params.layout.ctr.transStart.lo = true ∧
        (∃ i : Fin 16, (s.slot i).done = false ∧ (s.slot i).opCode = 1 ∧ (s.slot i).byteNum = 0) ∧
        step s = .refused .writeCountUnderflow)) ∧
    (s.host = .access (.write 0x04 (bytesOfWord v)) :: rest → off = 0x04 →
      v.getLsbD s.params.layout.ctr.msMode.lo ≠ s.params.masterMode →
      ∃ t, step s = .next t ∧ t.fault = some .slaveModeSelected)

/-- For every number that is no offset of the map, in a fault-free state with admissible parameters, the step after
withFetchWord runs exactly the command the number decodes to under the default LAYOUT (log entry 1), in slot 0,
inside the CTR write that triggers it: exec of the command, then the cursor and the trigger bit back at rest.
The placing is the model's choice (log entry 4). The resting values of the cursor and the trigger bit are log
entries 11 and 18.
(R190, R191.) -/
def Obligations.PlacedCommandRunsAlone : Prop :=
  ∀ (s : State) (w : Nat), w < 2 ^ 32 → isMapped w = false → s.fault = none → s.params.wf = true →
    step (s.withFetchWord 32 w) =
      andThen
        (exec (decodeCommand defaultLayout.cmd (BitVec.ofNat 32 w))
          { s with cmd := soleCommand (Slot.ofWrite defaultLayout.cmd (BitVec.ofNat 32 w)) s.cmd, cur := 0,
                   ctr := { s.ctr with msMode := s.params.masterMode, transStart := true } })
        (fun t => .next { t with cur := 0, ctr := { t.ctr with transStart := false } })

/-- Under every admissible LAYOUT, RD_CTR answers the same state with one more output, the value returned: the bit
of each field but trans_start is the stored field, the bit of trans_start is 0, and every bit of no field is 0.
(R132, R42.) -/
def Obligations.ReadControlReturnsItsFields : Prop :=
  ∀ s : State, s.params.layout.wf = true →
    ∃ w : Word, exec .rdCtr s = .next { s with out := s.out ++ [.reply w] } ∧
      w.getLsbD s.params.layout.ctr.sdaForceOut.lo = s.ctr.sdaForceOut ∧
      w.getLsbD s.params.layout.ctr.sclForceOut.lo = s.ctr.sclForceOut ∧
      w.getLsbD s.params.layout.ctr.sampleSclLevel.lo = s.ctr.sampleSclLevel ∧
      w.getLsbD s.params.layout.ctr.msMode.lo = s.ctr.msMode ∧
      w.getLsbD s.params.layout.ctr.transStart.lo = false ∧
      w.getLsbD s.params.layout.ctr.txLsbFirst.lo = s.ctr.txLsbFirst ∧
      w.getLsbD s.params.layout.ctr.rxLsbFirst.lo = s.ctr.rxLsbFirst ∧
      w.getLsbD s.params.layout.ctr.fsmRst.lo = s.ctr.fsmRst ∧
      (∀ k, Unspecified s.params.layout.ctr.fields k → w.getLsbD k = false)

/-- A slave value enters the fault state and does nothing else. A master value with trans_start = 0 stores the seven
fields and leaves trans_start 0, the engine does not run. With trans_start = 1 the outcome is that of one engine
pass, with the same fields stored and trans_start 0 at the end. The polarity is a parameter (D4), the fault the
spec's decision D5; that the fault's entry is a next state with the mark is log entry 8. The fields are where
the parameter LAYOUT has them. That the fields other than ms_mode and trans_start are stored and do nothing is
D25 (log entry 19).
(R131, 92_eei_decisions.md D4, D5, D25.) -/
def Obligations.WriteControlStoresAndTriggers : Prop :=
  ∀ (v : Word) (s : State),
    (v.getLsbD s.params.layout.ctr.msMode.lo ≠ s.params.masterMode → exec (.wrCtr v) s =
      .next { s with fault := some .slaveModeSelected, out := s.out ++ [.diag .slaveModeRequest] }) ∧
    (v.getLsbD s.params.layout.ctr.msMode.lo = s.params.masterMode →
      v.getLsbD s.params.layout.ctr.transStart.lo = false → exec (.wrCtr v) s =
      .next { s with ctr := controlFields s.params.layout.ctr v }) ∧
    (v.getLsbD s.params.layout.ctr.msMode.lo = s.params.masterMode →
      v.getLsbD s.params.layout.ctr.transStart.lo = true → exec (.wrCtr v) s =
      andThen (enginePass s) (fun t => .next { t with ctr := controlFields s.params.layout.ctr v }))

/-- Under every admissible LAYOUT, RD_SR answers the same state with one more output, the value returned: the bit of
each flag is the stored flag, the two SCL state fields are the stored values in their own widths, the two count
fields are the lengths of RXQ and TXQ in 6 bits, every bit of no field is 0. That the counts are views is the
spec's decision D12 (log entry 19).
(R134, R42, R177, 92_eei_decisions.md D12.) -/
def Obligations.ReadStatusReturnsItsFields : Prop :=
  ∀ s : State, s.params.layout.wf = true →
    ∃ w : Word, exec .rdSr s = .next { s with out := s.out ++ [.reply w] } ∧
      w.getLsbD s.params.layout.sr.ackRec.lo = s.sr.ackRec ∧
      w.getLsbD s.params.layout.sr.slaveRw.lo = s.sr.slaveRw ∧
      w.getLsbD s.params.layout.sr.timeOut.lo = s.sr.timeOut ∧
      w.getLsbD s.params.layout.sr.arbLost.lo = s.sr.arbLost ∧
      w.getLsbD s.params.layout.sr.busBusy.lo = s.sr.busBusy ∧
      w.getLsbD s.params.layout.sr.slaveAddressed.lo = s.sr.slaveAddressed ∧
      w.getLsbD s.params.layout.sr.byteTrans.lo = s.sr.byteTrans ∧
      w.extractLsb' s.params.layout.sr.rxFifoCnt.lo 6 = BitVec.ofNat 6 s.rxq.length ∧
      w.extractLsb' s.params.layout.sr.txFifoCnt.lo 6 = BitVec.ofNat 6 s.txq.length ∧
      (∀ j < s.params.layout.sr.sclMainStateLast.width,
        w.getLsbD (s.params.layout.sr.sclMainStateLast.lo + j) = s.sr.sclMainStateLast.getLsbD j) ∧
      (∀ j < s.params.layout.sr.sclStateLast.width,
        w.getLsbD (s.params.layout.sr.sclStateLast.lo + j) = s.sr.sclStateLast.getLsbD j) ∧
      (∀ k, Unspecified s.params.layout.sr.fields k → w.getLsbD k = false)

/-- Under every admissible LAYOUT, in every state whose FIFOs hold at most 32 bytes (which every step keeps), the
value RD_SR returns has rx_fifo_cnt = len(RXQ) and tx_fifo_cnt = len(TXQ) as numbers, both at most 32. That the
counts are views is the spec's decision D12.
(R177, R38, R134, 92_eei_decisions.md D12.) -/
def Obligations.StatusCountsAreExact : Prop :=
  ∀ s : State, s.params.layout.wf = true → FifosBounded s →
    ∃ w : Word, exec .rdSr s = .next { s with out := s.out ++ [.reply w] } ∧
      (w.extractLsb' s.params.layout.sr.rxFifoCnt.lo 6).toNat = s.rxq.length ∧
      (w.extractLsb' s.params.layout.sr.txFifoCnt.lo 6).toNat = s.txq.length ∧
      (w.extractLsb' s.params.layout.sr.rxFifoCnt.lo 6).toNat ≤ 32 ∧
      (w.extractLsb' s.params.layout.sr.txFifoCnt.lo 6).toNat ≤ 32

/-- Under every admissible LAYOUT and for every mask and value, WR_SR answers the same state but for the stored
Status fields; a bit of a field becomes the value's bit where the mask has a 1 and keeps its old value where it
has a 0. The counts, being views, do not change. Which bits a host may write is the parameter SR_WRITE_MASK, the
spec's decision D11 (log entry 2 for its default). That the counts are views is D12 (log entry 19).
(R133, 92_eei_decisions.md D11, D12.) -/
def Obligations.WriteStatusChangesMaskedBits : Prop :=
  ∀ (v : Word) (s : State), s.params.layout.wf = true →
    ∃ r : Sr, exec (.wrSr v) s = .next { s with sr := r } ∧
      (let L := s.params.layout.sr
       let m := s.params.srWriteMask
       r.ackRec = (if m.getLsbD L.ackRec.lo then v.getLsbD L.ackRec.lo else s.sr.ackRec) ∧
       r.slaveRw = (if m.getLsbD L.slaveRw.lo then v.getLsbD L.slaveRw.lo else s.sr.slaveRw) ∧
       r.timeOut = (if m.getLsbD L.timeOut.lo then v.getLsbD L.timeOut.lo else s.sr.timeOut) ∧
       r.arbLost = (if m.getLsbD L.arbLost.lo then v.getLsbD L.arbLost.lo else s.sr.arbLost) ∧
       r.busBusy = (if m.getLsbD L.busBusy.lo then v.getLsbD L.busBusy.lo else s.sr.busBusy) ∧
       r.slaveAddressed =
         (if m.getLsbD L.slaveAddressed.lo then v.getLsbD L.slaveAddressed.lo else s.sr.slaveAddressed) ∧
       r.byteTrans = (if m.getLsbD L.byteTrans.lo then v.getLsbD L.byteTrans.lo else s.sr.byteTrans) ∧
       (∀ j < L.sclMainStateLast.width, r.sclMainStateLast.getLsbD j =
         (if m.getLsbD (L.sclMainStateLast.lo + j) then v.getLsbD (L.sclMainStateLast.lo + j)
          else s.sr.sclMainStateLast.getLsbD j)) ∧
       (∀ j < L.sclStateLast.width, r.sclStateLast.getLsbD j =
         (if m.getLsbD (L.sclStateLast.lo + j) then v.getLsbD (L.sclStateLast.lo + j)
          else s.sr.sclStateLast.getLsbD j)) ∧
       (∀ j, L.sclMainStateLast.width ≤ j → r.sclMainStateLast.getLsbD j = false) ∧
       (∀ j, L.sclStateLast.width ≤ j → r.sclStateLast.getLsbD j = false))

/-- For every value, WR_FIFO_CONF answers the same state but for the eight fields of FIFO_CONF, taken from the value
where the parameter LAYOUT has them (the reset bits as written), RXQ emptied if the value's rx_fifo_rst is 1 and
TXQ emptied if its tx_fifo_rst is 1. That the reset bits read back as written is the spec's decision D13. That
the other fields are stored and do nothing is D25 (log entry 19).
(R135, 92_eei_decisions.md D13, D25.) -/
def Obligations.WriteFifoConfStoresAndClears : Prop :=
  ∀ (v : Word) (s : State), exec (.wrFifoConf v) s =
    (let L := s.params.layout.fifoConf
     .next { s with
      fifoConf := { rxFifoFullThrhd := L.rxFifoFullThrhd.get v, txFifoEmptyThrhd := L.txFifoEmptyThrhd.get v,
                    nonfifoEn := v.getLsbD L.nonfifoEn.lo, fifoAddrCfgEn := v.getLsbD L.fifoAddrCfgEn.lo,
                    rxFifoRst := v.getLsbD L.rxFifoRst.lo, txFifoRst := v.getLsbD L.txFifoRst.lo,
                    nonfifoRxThres := L.nonfifoRxThres.get v, nonfifoTxThres := L.nonfifoTxThres.get v }
      rxq := if v.getLsbD L.rxFifoRst.lo then [] else s.rxq
      txq := if v.getLsbD L.txFifoRst.lo then [] else s.txq })

/-- Under every admissible LAYOUT, RD_FIFO_CONF answers the same state with one more output, the value returned, in
which each of the eight fields is the stored one, in its own width, and every bit of no field is 0. That the
reset bits read back as stored is the spec's decision D13 (log entry 19).
(R136, R42, 92_eei_decisions.md D13.) -/
def Obligations.ReadFifoConfReturnsItsFields : Prop :=
  ∀ s : State, s.params.layout.wf = true →
    ∃ w : Word, exec .rdFifoConf s = .next { s with out := s.out ++ [.reply w] } ∧
      (let L := s.params.layout.fifoConf
       (∀ j < L.rxFifoFullThrhd.width, w.getLsbD (L.rxFifoFullThrhd.lo + j) = s.fifoConf.rxFifoFullThrhd.getLsbD j) ∧
       (∀ j < L.txFifoEmptyThrhd.width,
         w.getLsbD (L.txFifoEmptyThrhd.lo + j) = s.fifoConf.txFifoEmptyThrhd.getLsbD j) ∧
       w.getLsbD L.nonfifoEn.lo = s.fifoConf.nonfifoEn ∧ w.getLsbD L.fifoAddrCfgEn.lo = s.fifoConf.fifoAddrCfgEn ∧
       w.getLsbD L.rxFifoRst.lo = s.fifoConf.rxFifoRst ∧ w.getLsbD L.txFifoRst.lo = s.fifoConf.txFifoRst ∧
       (∀ j < L.nonfifoRxThres.width, w.getLsbD (L.nonfifoRxThres.lo + j) = s.fifoConf.nonfifoRxThres.getLsbD j) ∧
       (∀ j < L.nonfifoTxThres.width, w.getLsbD (L.nonfifoTxThres.lo + j) = s.fifoConf.nonfifoTxThres.getLsbD j) ∧
       (∀ k, Unspecified L.fields k → w.getLsbD k = false))

/-- Under every admissible LAYOUT: after a CTR write of a master value, without or with a pass, RD_CTR returns the
value's fields but trans_start. After WR_FIFO_CONF, RD_FIFO_CONF returns the value's fields, the reset bits as
written (D13). After WR_SR with all stored fields in SR_WRITE_MASK (its default, D11, log entry 2), RD_SR
returns the value's stored fields and the true counts. After WR_CMD of slot i, RD_CMD of it returns the value's
five fields. After WR_INT_ENA, RD_INT_ENA returns bits 15:0. Under the default LAYOUT, which is the spec's
decisions D1 and D2 (log entry 1, PRESUMED), the fields are the masks 0x4D7, 0x03FFFFFF, 0x7700007F and 0x3FFF.
That the counts are views is D12, that bit 31 and the bits of no field of a slot write are dropped D32 (log
entry 19).
(R42, R100, R131, R133, R135, R147, 92_eei_decisions.md D1, D2, D11, D13, D12, D32.) -/
def Obligations.WrittenRegistersReadBack : Prop :=
  (∀ (v : Word) (s t : State), s.params.layout.wf = true →
    (v.getLsbD s.params.layout.ctr.msMode.lo = s.params.masterMode → exec (.wrCtr v) s = .next t →
      exec .rdCtr t = .next { t with out := t.out ++
        [.reply (v &&& definedBits s.params.layout.ctr.fields &&& ~~~s.params.layout.ctr.transStart.mask)] }) ∧
    (exec (.wrFifoConf v) s = .next t →
      exec .rdFifoConf t =
        .next { t with out := t.out ++ [.reply (v &&& definedBits s.params.layout.fifoConf.fields)] }) ∧
    (s.params.srWriteMask = definedBits s.params.layout.sr.stored → exec (.wrSr v) s = .next t →
      exec .rdSr t = .next { t with out := t.out ++ [.reply ((v &&& definedBits s.params.layout.sr.stored) |||
        (BitVec.ofNat 6 s.rxq.length).setWidth 32 <<< s.params.layout.sr.rxFifoCnt.lo |||
        (BitVec.ofNat 6 s.txq.length).setWidth 32 <<< s.params.layout.sr.txFifoCnt.lo)] }) ∧
    (∀ i : Fin 16, exec (wrCmd i v) s = .next t →
      exec (rdCmd i) t =
        .next { t with out := t.out ++ [.reply (v &&& definedBits s.params.layout.cmd.fields)] }) ∧
    (exec (.wrIntEna v) s = .next t →
      exec .rdIntEna t = .next { t with out := t.out ++ [.reply (v &&& 0x0000FFFF)] })) ∧
  (definedBits defaultLayout.ctr.fields &&& ~~~defaultLayout.ctr.transStart.mask = 0x000004D7 ∧
    definedBits defaultLayout.fifoConf.fields = 0x03FFFFFF ∧
    definedBits defaultLayout.sr.stored = 0x7700007F ∧
    definedBits defaultLayout.cmd.fields = 0x00003FFF ∧
    defaultParams.layout = defaultLayout ∧ defaultParams.srWriteMask = 0x7700007F)

/-- With TXQ of length 32, WR_DATA answers the same state with the diagnostic TxFifoOverflow as one more output;
with any other length TXQ gains v[7:0] at its end and nothing else changes. No event is raised and the engine
does not run. That an overflow is only reported is the spec's decision D14, the byte lane D16, the diagnostic
channel D27 (log entry 19).
(R137, R171, 92_eei_decisions.md D14, D16.) -/
def Obligations.WriteDataPushesOrReportsOverflow : Prop :=
  ∀ (v : Word) (s : State),
    (s.txq.length = 32 → exec (.wrData v) s = .next { s with out := s.out ++ [.diag .txFifoOverflow] }) ∧
    (s.txq.length ≠ 32 → exec (.wrData v) s = .next { s with txq := s.txq ++ [v.extractLsb' 0 8] })

/-- From a TXQ of at most 32 bytes, pushing any list of bytes leaves TXQ holding the first 32 of the old bytes
followed by the pushed ones, in order, and emits one TxFifoOverflow diagnostic for each byte beyond, and changes
nothing else. That an overflow is dropped and only reported is the spec's decision D14, the byte lane D16, the
diagnostic channel D27 (log entry 19).
(R171, R137, R170, 92_eei_decisions.md D14, D16, D27.) -/
def Obligations.PushesFillThenOverflow : Prop :=
  ∀ (bytes : List Byte) (s : State), s.txq.length ≤ 32 →
    bytes.foldl (fun r b => andThen r (exec (.wrData (b.setWidth 32)))) (.next s) =
      .next { s with
        txq := (s.txq ++ bytes).take 32
        out := s.out ++ List.replicate (s.txq.length + bytes.length - 32) (.diag .txFifoOverflow) }

/-- With RXQ = b :: q, RD_DATA leaves q and returns b zero-extended, nothing else changes. With RXQ empty it stays
empty, the diagnostic RxFifoUnderflow is emitted and some value is returned: the spec leaves RX_EMPTY_READ open
and the statement holds for every value of it (log entries 6 and 7). That the byte is returned zero-extended in
bits 7:0 is the spec's decision D16 (log entry 19); that a pop of an empty RXQ changes nothing and is only
reported is D15, the diagnostic channel D27 (log entry 19).
(R138, R174, 92_eei_decisions.md D15, D16, D27.) -/
def Obligations.ReadDataPopsOldestByte : Prop :=
  ∀ s : State,
    (∀ b q, s.rxq = b :: q → exec .rdData s =
      .next { s with rxq := q, out := s.out ++ [.reply (b.setWidth 32)] }) ∧
    (s.rxq = [] → ∃ w : Word, exec .rdData s =
      .next { s with draws := s.draws + 1, out := s.out ++ [.diag .rxFifoUnderflow, .reply w] })

/-- RD_INT_RAW returns INT_RAW zero-extended and leaves INT_RAW 0; INT_ST, INT_ENA, the line and everything else are
as before.
(R139.) -/
def Obligations.ReadRawInterruptsIsDestructive : Prop :=
  ∀ s : State, exec .rdIntRaw s =
    .next { s with intRaw := 0, out := s.out ++ [.reply (s.intRaw.setWidth 32)] }

/-- For every value, WR_INT_CLR sets INT_ST to 0 and the line to 0; the fall of the line is seen outside exactly
when it was high; INT_RAW, INT_ENA and everything else are as before. How the line shows in the outputs is log
entry 12.
(R141.) -/
def Obligations.ClearWriteZeroesStatusAndLine : Prop :=
  ∀ (v : Word) (s : State), exec (.wrIntClr v) s =
    .next { s with intSt := 0, irq := false, out := s.out ++ (if s.irq then [.irq false] else []) }

/-- Each of the two answers the same state with one more output, the value returned: INT_ENA, or INT_ST,
zero-extended to 32 bits.
(R144, R145.) -/
def Obligations.InterruptMaskAndStatusReads : Prop :=
  ∀ s : State,
    exec .rdIntEna s = .next { s with out := s.out ++ [.reply (s.intEna.setWidth 32)] } ∧
    exec .rdIntSt s = .next { s with out := s.out ++ [.reply (s.intSt.setWidth 32)] }

/-- For every value, WR_INT_RAW and WR_INT_ST answer the same state; RD_INT_CLR answers the same state with one more
output, the value 0. None emits a diagnostic. The value of the read, the effect of the INT_ST write and that
none emits a diagnostic are the spec's decision D17 (log entry 19).
(R140, R142, R146, 92_eei_decisions.md D17.) -/
def Obligations.AccessesAgainstTheLabelDoNothing : Prop :=
  ∀ (v : Word) (s : State), exec (.wrIntRaw v) s = .next s ∧ exec (.wrIntSt v) s = .next s ∧
    exec .rdIntClr s = .next { s with out := s.out ++ [.reply 0] }

/-- For each of the sixteen events and every state, k being the event's bit: bit k of INT_RAW rises and no other;
bit k of INT_ST rises and no other, and only if INT_ENA[k] is 1; the line is asserted if it is; nothing else
changes but the edge of the line; raising the event again changes nothing. How the line shows in the outputs is
log entry 12.
(R233.) -/
def Obligations.RaisingAnEventLatchesIt : Prop :=
  ∀ (e : Event) (s : State),
    (∀ k < 16, (raiseIrq e s).intRaw.getLsbD k = (s.intRaw.getLsbD k || k == s.bitOf e)) ∧
    (∀ k < 16, (raiseIrq e s).intSt.getLsbD k =
      (s.intSt.getLsbD k || (k == s.bitOf e && s.intEna.getLsbD k))) ∧
    (raiseIrq e s).irq = (s.irq || s.intEna.getLsbD (s.bitOf e)) ∧
    raiseIrq e s = { s with
      intRaw := (raiseIrq e s).intRaw, intSt := (raiseIrq e s).intSt, irq := (raiseIrq e s).irq
      out := s.out ++ (if (raiseIrq e s).irq = s.irq then [] else [.irq true]) } ∧
    raiseIrq e (raiseIrq e s) = raiseIrq e s

/-- For every value, WR_INT_ENA answers the same state but for INT_ENA, which becomes the low 16 bits of the value:
enabling latches nothing, disabling releases nothing. That the write recomputes nothing is the spec's decision
D18.
(R143, 92_eei_decisions.md D18.) -/
def Obligations.WriteEnableStoresMaskOnly : Prop :=
  ∀ (v : Word) (s : State), exec (.wrIntEna v) s = .next { s with intEna := v.extractLsb' 0 16 }

/-- Under every admissible LAYOUT, for each of the sixteen slots and every value, WR_CMD stores byte_num (8 bits),
ack_en, ack_exp, ack_val and op_code (3 bits) from the value and clears done; the other fifteen slots and
everything else are as before. That the written bit 31 is ignored is the spec's decision D32.
(R147, 92_eei_decisions.md D32.) -/
def Obligations.WriteSlotProgramsPendingCommand : Prop :=
  ∀ (i : Fin 16) (v : Word) (s : State), s.params.layout.wf = true →
    ∃ t, exec (wrCmd i v) s = .next t ∧
      t.slot i = { byteNum := v.extractLsb' s.params.layout.cmd.byteNum.lo 8,
                   ackEn := v.getLsbD s.params.layout.cmd.ackEn.lo, ackExp := v.getLsbD s.params.layout.cmd.ackExp.lo,
                   ackVal := v.getLsbD s.params.layout.cmd.ackVal.lo,
                   opCode := v.extractLsb' s.params.layout.cmd.opCode.lo 3, done := false } ∧
      (∀ j, j ≠ i → t.slot j = s.slot j) ∧ t = { s with cmd := t.cmd }

/-- Under every admissible LAYOUT, for each of the sixteen slots, RD_CMD answers the same state with one more
output, the value returned: byte_num, ack_en, ack_exp, ack_val and op_code where LAYOUT has them, done at bit
31, every bit of no field 0.
(R148, R42.) -/
def Obligations.ReadSlotReturnsItsFields : Prop :=
  ∀ (i : Fin 16) (s : State), s.params.layout.wf = true →
    ∃ w : Word, exec (rdCmd i) s = .next { s with out := s.out ++ [.reply w] } ∧
      w.extractLsb' s.params.layout.cmd.byteNum.lo 8 = (s.slot i).byteNum ∧
      w.getLsbD s.params.layout.cmd.ackEn.lo = (s.slot i).ackEn ∧
      w.getLsbD s.params.layout.cmd.ackExp.lo = (s.slot i).ackExp ∧
      w.getLsbD s.params.layout.cmd.ackVal.lo = (s.slot i).ackVal ∧
      w.extractLsb' s.params.layout.cmd.opCode.lo 3 = (s.slot i).opCode ∧
      w.getLsbD 31 = (s.slot i).done ∧
      (∀ k, k ≠ 31 → Unspecified s.params.layout.cmd.fields k → w.getLsbD k = false)

/-- RD_UNKNOWN emits the diagnostic with the offset and returns 0; WR_UNKNOWN emits the diagnostic with the offset
and the value; neither changes anything else.
(R149, R150.) -/
def Obligations.UnknownOffsetsAreLoggedNoOps : Prop :=
  ∀ (off : Nat) (v : Word) (s : State),
    exec (.rdUnknown off) s = .next { s with out := s.out ++ [.diag (.unknownOffsetRead off), .reply 0] } ∧
    exec (.wrUnknown off v) s = .next { s with out := s.out ++ [.diag (.unknownOffsetWrite off v)] }

/-- For every operand, RESTART in slot cur writes bus_busy to IDLE, calls Bus.end, marks the slot done, and changes
nothing else.
(R195.) -/
def Obligations.RestartIdlesTheBus : Prop :=
  ∀ (n : BitVec 8) (en ex av : Bool) (s : State), exec (.cmdRestart n en ex av) s =
    .next (withDone { s with sr := { s.sr with busBusy := false }, out := s.out ++ [.busEnd] })

/-- For every operand, STOP in slot cur writes bus_busy to IDLE, calls Bus.end, then raises trans_complete, marks
the slot done, and changes nothing else. The event's bit is where the parameter LAYOUT has it.
(R200, R233, R193.) -/
def Obligations.StopEndsAndCompletes : Prop :=
  ∀ (n : BitVec 8) (en ex av : Bool) (s : State), exec (.cmdStop n en ex av) s =
    .next (withDone (afterEvent (s.bitOf .transComplete)
      { s with sr := { s.sr with busBusy := false }, out := s.out ++ [.busEnd] }))

/-- For every operand, k being the bit of end_detect where the parameter LAYOUT has it: END in slot cur sets
INT_RAW[k]; if INT_ENA[k] is 1 it also sets INT_ST[k] and asserts the line, whose rise is seen outside when it
was low; the slot is marked done; the bus flag, the transport and everything else are untouched.
(R201, R233, R193.) -/
def Obligations.EndRaisesEndDetect : Prop :=
  ∀ (n : BitVec 8) (en ex av : Bool) (s : State), exec (.cmdEnd n en ex av) s =
    .next { s with
      intRaw := s.intRaw ||| 1#16 <<< s.bitOf .endDetect
      intSt := if s.intEna.getLsbD (s.bitOf .endDetect) then s.intSt ||| 1#16 <<< s.bitOf .endDetect else s.intSt
      irq := if s.intEna.getLsbD (s.bitOf .endDetect) then true else s.irq
      out := s.out ++
        (if s.intEna.getLsbD (s.bitOf .endDetect) then (if s.irq then [] else [.irq true]) else [])
      cmd := s.cmd.set s.cur { s.slot s.cur with done := true } }

/-- For every operand, each of the three unknown opcodes in slot cur marks the slot done and changes nothing else.
That the slot is marked done is the spec's decision D34.
(R202, R193, R99.) -/
def Obligations.UnknownOpcodesOnlyCompleteTheSlot : Prop :=
  ∀ (n : BitVec 8) (en ex av : Bool) (s : State),
    exec (.cmdUnknown5 n en ex av) s = .next (withDone s) ∧
    exec (.cmdUnknown6 n en ex av) s = .next (withDone s) ∧
    exec (.cmdUnknown7 n en ex av) s = .next (withDone s)

/-- For every operand: with RXQ of length 32, READ raises rx_fifo_ovf and calls nothing. Else it calls Bus.recv
once, appends the byte it answers to RXQ and, if RXQ then has length 32, raises rx_fifo_full. The slot is marked
done; Status, TXQ and the ack fields are untouched. With a scripted answer the byte is that answer, which is
removed; without one it is a free value and the draw counter advances (log entries 5 and 7, DESIGN CHOICE). That
byte_num is ignored is the spec's decision D22. Which listed events the FIFO names of the document mean is D35
(log entry 19).
(R199, 92_eei_decisions.md D22, D35.) -/
def Obligations.ReadMovesOneByteOrOverflows : Prop :=
  ∀ (n : BitVec 8) (en ex av : Bool) (s : State),
    (s.rxq.length = 32 → exec (.cmdRead n en ex av) s = .next (withDone (afterEvent (s.bitOf .rxFifoOvf) s))) ∧
    (s.rxq.length ≠ 32 → ∃ (b : Byte) (answers : List Byte) (draws : Nat),
      (∀ b' bs, s.recvAnswers = b' :: bs → b = b' ∧ answers = bs ∧ draws = s.draws) ∧
      (s.recvAnswers = [] → answers = [] ∧ draws = s.draws + 1) ∧
      exec (.cmdRead n en ex av) s = .next (withDone
        (let t := { s with rxq := s.rxq ++ [b], recvAnswers := answers, draws := draws,
                           out := s.out ++ [.busRecv b] }
         if s.rxq.length + 1 = 32 then afterEvent (s.bitOf .rxFifoFull) t else t)))

/-- For every operand. Bus BUSY: the data phase with N bytes. Bus IDLE and TXQ empty: tx_fifo_empty, nothing else.
Bus IDLE and TXQ = b :: q: Bus.begin(b[7:1], b[0]); on nack ack_rec becomes 0, NoAck is emitted, ack_err raised;
on ok with N = 0 the step is refused; on ok with N > 0 the bus is BUSY, ack_rec and byte_trans are 1, ack_val is
ack_en AND ack_exp, trans_start is raised and the data phase has N - 1 bytes. Every data phase sends the oldest
bytes, sets byte_trans, raises tx_fifo_empty if they run out, then tx_send_empty. In every case but the refusal
the slot is marked done and nothing else changes but the model's own script of answers and draw counter: a
scripted answer is taken and removed, without one the answer is a free value and the counter advances (log
entries 5 and 7, DESIGN CHOICE). The refusal is the spec's decision D19 (log entry 9), the aborts D20 (log entry
19); that byte_num is not written back is D21 (log entry 19). The split of the address byte is D24, which listed
event tx_fifo_empty is D35, the diagnostic channel D27 (log entry 19).
(R196, R198, R197, 92_eei_decisions.md D19, D20, D21, D24, D27, D35.) -/
def Obligations.WriteCommandEffect : Prop :=
  ∀ (n : BitVec 8) (en ex av : Bool) (s : State),
    (s.sr.busBusy = true → exec (.cmdWrite n en ex av) s =
      .next (withDone (afterEvent (s.bitOf .txSendEmpty) (afterSends n.toNat s)))) ∧
    (s.sr.busBusy = false → s.txq = [] → exec (.cmdWrite n en ex av) s =
      .next (withDone (afterEvent (s.bitOf .txFifoEmpty) s))) ∧
    (∀ (b : Byte) (q : List Byte), s.sr.busBusy = false → s.txq = b :: q →
      ∃ (r : BeginResult) (answers : List BeginResult) (draws : Nat),
        (∀ r' rs, s.beginAnswers = r' :: rs → r = r' ∧ answers = rs ∧ draws = s.draws) ∧
        (s.beginAnswers = [] → answers = [] ∧ draws = s.draws + 1) ∧
        (r = .nack → exec (.cmdWrite n en ex av) s = .next (withDone (afterEvent (s.bitOf .ackErr)
          { s with
            txq := q, beginAnswers := answers, draws := draws, sr := { s.sr with ackRec := false }
            out := s.out ++ [.busBegin (b.extractLsb' 1 7) (if b.getLsbD 0 then .read else .write) .nack,
                             .diag (.noAck (b.extractLsb' 1 7))] }))) ∧
        (r = .ok → n = 0 → exec (.cmdWrite n en ex av) s = .refused .writeCountUnderflow) ∧
        (r = .ok → n ≠ 0 → exec (.cmdWrite n en ex av) s =
          .next (withDone (afterEvent (s.bitOf .txSendEmpty) (afterSends (n.toNat - 1)
            (afterEvent (s.bitOf .transStart)
            { s with
              txq := q, beginAnswers := answers, draws := draws
              sr := { s.sr with busBusy := true, ackRec := true, byteTrans := true }
              cmd := s.cmd.set s.cur { s.slot s.cur with ackVal := en && ex }
              out := s.out ++
                [.busBegin (b.extractLsb' 1 7) (if b.getLsbD 0 then .read else .write) .ok] }))))))

/-- For every operand and state, WRITE answers a next state or is refused as writeCountUnderflow, never a fault; and
it is refused if and only if byte_num = 0, the bus is IDLE, TXQ is not empty and Bus.begin on its first byte
answers ok. The refusal is the spec's decision D19 (log entry 9). What Bus.begin answers is a scripted or a free
value (log entry 5); the split of the address byte is D24 (log entry 19).
(R198, 92_eei_decisions.md D19, D24.) -/
def Obligations.WriteIsRefusedOnlyOnAcknowledgedZeroCount : Prop :=
  ∀ (n : BitVec 8) (en ex av : Bool) (s : State),
    ((∃ t, exec (.cmdWrite n en ex av) s = .next t) ∨
      exec (.cmdWrite n en ex av) s = .refused .writeCountUnderflow) ∧
    (exec (.cmdWrite n en ex av) s = .refused .writeCountUnderflow ↔
      n = 0 ∧ s.sr.busBusy = false ∧ ∃ (b : Byte) (q : List Byte), s.txq = b :: q ∧
        (busBegin (b.extractLsb' 1 7) (if b.getLsbD 0 then .read else .write) { s with txq := q }).1 = .ok)

/-- EnginePass is the visits of slots 0, 1, ..., 15 one after another, each on the state the last one left, ended
early only by a refusal; the order of the visits is the sixteen indices in strictly ascending order. The resting
value 0 of the cursor is the model's choice (log entry 11).
(R191, R205, R33.) -/
def Obligations.PassVisitsSlotsInAscendingOrder : Prop :=
  slotOrder.Pairwise (· < ·) ∧ (∀ i : Fin 16, i ∈ slotOrder) ∧
  ∀ s : State, enginePass s =
    andThen ((List.finRange 16).foldl (fun r i => andThen r (visitSlot i)) (.next s))
      (fun t => .next { t with cur := 0 })

/-- Visiting a done slot moves the cursor and changes nothing else. Under every admissible LAYOUT, visiting a
pending slot is exec of the command its word decodes to, with the cursor on it, and its word decodes to the
command its op_code names with its byte_num, ack_en, ack_exp and ack_val.
(R191, R193, R74.) -/
def Obligations.VisitSkipsDoneAndRunsPendingSlot : Prop :=
  ∀ (i : Fin 16) (s : State),
    ((s.slot i).done = true → visitSlot i s = .next { s with cur := i }) ∧
    ((s.slot i).done = false → s.params.layout.wf = true →
      visitSlot i s = exec (decodeCommand s.params.layout.cmd ((s.slot i).toWord s.params.layout.cmd))
        { s with cur := i } ∧
      encode s.params.layout.cmd (decodeCommand s.params.layout.cmd ((s.slot i).toWord s.params.layout.cmd)) =
        .cmd (commandWord s.params.layout.cmd (s.slot i).opCode (s.slot i).byteNum
          (s.slot i).ackEn (s.slot i).ackExp (s.slot i).ackVal))

/-- If a pass answers a next state: all 16 done flags are 1, a slot that was done before is the same slot, and a
slot's fields other than ack_val and done are as before; CTR, FIFO_CONF, INT_ENA, the parameters, the fault mark
and the pending host events are as before; so are SR.slave_rw, time_out, arb_lost, slave_addressed and the SCL
state fields; no bit of INT_RAW or INT_ST, no asserted line and no set byte_trans is cleared. (bus_busy and
ack_rec are not among these: RESTART and STOP clear bus_busy, a not-acknowledged address clears ack_rec.) That
byte_num is not written back is the spec's decision D21 (log entry 19).
(R192, R193, R40, R203, R197, 92_eei_decisions.md D21.) -/
def Obligations.PassFinishesSlotsAndKeepsHostState : Prop :=
  ∀ s t : State, enginePass s = .next t → AllDone t ∧ EngineKeeps s t

/-- For every state in which no pending slot is a WRITE with byte_num 0 and every master value with the start bit,
WR_CTR answers a next state: all 16 slots done, the seven CTR fields from the value, trans_start 0, whatever the
transport answers. The condition is on the slots alone. That the cursor is 0 afterwards is the model's choice
(log entry 11). That the excluded case, R198's, is refused is the spec's decision D19 (log entry 9).
(R131, R192, R198, R206, 92_eei_decisions.md D19.) -/
def Obligations.TriggeredPassCompletes : Prop :=
  ∀ (v : Word) (s : State), v.getLsbD s.params.layout.ctr.msMode.lo = s.params.masterMode →
    v.getLsbD s.params.layout.ctr.transStart.lo = true → NoZeroCountWrite s →
    ∃ t, exec (.wrCtr v) s = .next t ∧ AllDone t ∧ t.ctr = controlFields s.params.layout.ctr v ∧ t.cur = 0

/-- For every state a pass answers a next state, or is refused as writeCountUnderflow and then some slot was pending
with opcode 1 and byte_num 0. That the case is refused is the spec's decision D19 (log entry 9, DEDUCED).
(R198, R206, R247, 92_eei_decisions.md D19.) -/
def Obligations.PassNeverFaultsAndRefusesOnlyZeroCount : Prop :=
  ∀ s : State, (∃ t, enginePass s = .next t) ∨
    (enginePass s = .refused .writeCountUnderflow ∧
      ∃ i : Fin 16, (s.slot i).done = false ∧ (s.slot i).opCode = 1 ∧ (s.slot i).byteNum = 0)

/-- In a state between passes with all 16 done flags 1, a CTR write of a master value with the start bit stores the
CTR fields, leaves trans_start 0, and changes nothing else: no transport call, no event. That the cursor rests
at 0 between passes is the model's choice (log entry 11). That the empty pass runs and changes nothing is the
spec's decision D26 (log entry 19).
(R207, R131, 92_eei_decisions.md D26.) -/
def Obligations.PassWithNothingPendingChangesNothing : Prop :=
  ∀ (v : Word) (s : State), v.getLsbD s.params.layout.ctr.msMode.lo = s.params.masterMode →
    v.getLsbD s.params.layout.ctr.transStart.lo = true → BetweenPasses s → AllDone s →
    exec (.wrCtr v) s = .next { s with ctr := controlFields s.params.layout.ctr v }

/-- If a pass answers a next state, it only appends outputs; TXQ before is the bytes of its begin and send calls, in
order, followed by TXQ after; RXQ after is RXQ before followed by the bytes of its receive calls, in order. No
byte is changed, reordered, lost or moved between the FIFOs. That bytes pass unchanged whatever the bit order
fields hold is the spec's decision D25 (log entry 19). The address byte is put together again by D24 (log entry
19).
(R80, R170, R173, R178, R180, R196, R199, 92_eei_decisions.md D25, D24.) -/
def Obligations.PassConservesBytes : Prop :=
  ∀ s t : State, enginePass s = .next t → ∃ new : List Output, t.out = s.out ++ new ∧
    s.txq = new.filterMap Output.byteToBus ++ t.txq ∧
    t.rxq = s.rxq ++ new.filterMap Output.byteFromBus

/-- If a pass answers a next state, the outputs it appends hold at most 16 Bus.begin, 16 Bus.end and 16 Bus.recv
calls, and at most len(TXQ) Bus.send calls, hence at most 32 when the FIFOs are within their capacity. That a
READ receives one byte whatever byte_num is, hence at most 16, is the spec's decision D22 (log entry 19).
(R206, R192, 92_eei_decisions.md D22.) -/
def Obligations.PassCallsAreBounded : Prop :=
  ∀ s t : State, enginePass s = .next t → ∃ new : List Output, t.out = s.out ++ new ∧
    new.countP Output.isBegin ≤ 16 ∧ new.countP Output.isEnd ≤ 16 ∧ new.countP Output.isRecv ≤ 16 ∧
    new.countP Output.isSend ≤ s.txq.length ∧ (FifosBounded s → new.countP Output.isSend ≤ 32)

/-- For every state and every other contents of CTR and FIFO_CONF, the pass from the changed state has the outcome
of the pass from the state, with those two registers changed the same way: bit order, thresholds, non-FIFO mode
and reset bits influence nothing. The document gives these fields no behaviour; that they have none is the
spec's decision D25 (log entry 19).
(R203, R179, R180, R131, 92_eei_decisions.md D25.) -/
def Obligations.EngineIgnoresControlAndFifoConf : Prop :=
  ∀ (s : State) (c : Ctr) (f : FifoConf), enginePass { s with ctr := c, fifoConf := f } =
    andThen (enginePass s) (fun t => .next { t with ctr := c, fifoConf := f })

/-- From every state whose FIFOs hold at most 32 bytes each, a step that answers a next state leaves them so. That a
push to a full TXQ drops the byte is the spec's decision D14 (log entry 19).
(R28, R29, R38, R178, 92_eei_decisions.md D14.) -/
def Obligations.StepKeepsFifosBounded : Prop :=
  ∀ s t : State, FifosBounded s → step s = .next t → FifosBounded t

/-- From every state in which the line is asserted exactly when INT_ST is not 0, a step that answers a next state
leaves it so: accesses, passes and resets. R41 itself rests on D10: that the reset operation lowers the line is
that decision, not the document's word (log entry 14, DEDUCED, unsafe for the line after a warm reset).
(R41, R233, R236, R270, 92_eei_decisions.md D10.) -/
def Obligations.StepKeepsLineEqualToStatus : Prop :=
  ∀ s t : State, LineFollowsStatus s → step s = .next t → LineFollowsStatus t

/-- Under every admissible LAYOUT, from every state in which the bits of slave_tran_comp, arbitration_lost,
master_tran_comp, time_out, rx_rec_full, scl_st_to, scl_main_st_to and det_start are 0 in INT_RAW and INT_ST,
whatever INT_ENA holds, a step that answers a next state leaves them 0. The events' bits are those of the
parameter LAYOUT, any sixteen different ones of bits 15:0; that the default takes list position is the spec's
decision D35 (log entry 16) and no part of the claim.
(R232, R203, R252.) -/
def Obligations.StepKeepsUnraisedEventsClear : Prop :=
  ∀ s t : State, s.params.layout.wf = true → UnraisedEventsClear s → step s = .next t → UnraisedEventsClear t

/-- The reset state meets the invariant; and from every state that meets it, reached by a run or not, a step that
answers a next state leads to one that meets it, with the parameters unchanged. The invariant: both FIFOs hold
at most 32 bytes, the line follows INT_ST, the bits of the events that nothing raises are 0, fields of a width
LAYOUT fixes fit it, no pass is under way, the parameters are admissible. That a reset lowers the line is D10
(log entry 14); the resting values of the cursor and of the trigger bit are the model's (log entries 11 and 18);
the parameters' defaults, the events' bits among them, are log entries 1, 2 and 16. That a push to a full TXQ
drops the byte is D14 (log entry 19).
(R41, R38, R232, R33, R5, R21, 92_eei_decisions.md D10, D14.) -/
def Obligations.StepKeepsInvariant : Prop :=
  Inv State.reset ∧
  (∀ s t : State, Inv s → step s = .next t → Inv t ∧ t.params = s.params)

/-- For every host operation other than a CTR write with the start bit, if exec answers a next state, the transport
trace is unchanged, no bit of INT_RAW or INT_ST that was 0 is 1, and the line is not newly asserted. That an
overflowing push raises no event is the spec's decision D14, that a write of INT_RAW or INT_ST changes nothing
D17, that a write of INT_ENA latches nothing D18 (log entry 19).
(R190, R130, R232, 92_eei_decisions.md D14, D17, D18.) -/
def Obligations.OnlyATriggerReachesTheBus : Prop :=
  ∀ (i : Instr) (s t : State), i.isHostAccess = true →
    (∀ v, i = .wrCtr v → v.getLsbD s.params.layout.ctr.transStart.lo = false) → exec i s = .next t →
    t.busTrace = s.busTrace ∧ t.intRaw &&& ~~~s.intRaw = 0 ∧ t.intSt &&& ~~~s.intSt = 0 ∧
    (t.irq = true → s.irq = true)

/-- For every instruction other than WR_INT_CLR, host operation or command, if exec answers a next state then every
bit of INT_ST that was 1 is still 1 and an asserted line is still asserted. That a write of INT_ST changes
nothing is the spec's decision D17, that disabling releases nothing D18 (log entry 19).
(R26, R235, R146, 92_eei_decisions.md D17, D18.) -/
def Obligations.StatusAndLineFallOnlyOnClear : Prop :=
  ∀ (i : Instr) (s t : State), (∀ v, i ≠ .wrIntClr v) → exec i s = .next t →
    s.intSt &&& t.intSt = s.intSt ∧ (s.irq = true → t.irq = true)

/-- For every instruction, if exec answers a next state, each bit of INT_ST that rose was enabled in INT_ENA before,
and is 1 in INT_RAW after; so a masked event never reaches the status register, and enabling late latches
nothing. That a write of INT_ST changes nothing is the spec's decision D17, that enabling latches nothing D18
(log entry 19).
(R233, R234, R143, 92_eei_decisions.md D17, D18.) -/
def Obligations.StatusBitsComeOnlyFromEnabledEvents : Prop :=
  ∀ (i : Instr) (s t : State), exec i s = .next t →
    t.intSt &&& ~~~s.intSt &&& ~~~s.intEna = 0 ∧ t.intSt &&& ~~~s.intSt &&& ~~~t.intRaw = 0

/-- For every instruction other than RD_INT_RAW, if exec answers a next state then every bit of INT_RAW that was 1
is still 1; in particular WR_INT_CLR leaves the raw register alone.
(R24, R139, R236.) -/
def Obligations.RawBitsFallOnlyOnDestructiveRead : Prop :=
  ∀ (i : Instr) (s t : State), i ≠ .rdIntRaw → exec i s = .next t → s.intRaw &&& t.intRaw = s.intRaw

/-- For every instruction, if exec answers a next state in which a slot that was done is pending, the instruction is
WR_CMD of that slot.
(R40, R147, R192.) -/
def Obligations.DoneFlagFallsOnlyByWritingTheSlot : Prop :=
  ∀ (i : Instr) (s t : State) (k : Fin 16), exec i s = .next t → (s.slot k).done = true →
    (t.slot k).done = false → ∃ v, i = wrCmd k v

/-- For every instruction, if exec answers a next state in which the bus has gone from IDLE to BUSY, the instruction
is WR_SR, or the step appended a Bus.begin call that was answered ok. That a host write of SR may set bus_busy
is the spec's decision D11 (log entry 2).
(R39, R22, R196, 92_eei_decisions.md D11.) -/
def Obligations.BusBecomesBusyOnlyByAcknowledgedAddress : Prop :=
  ∀ (i : Instr) (s t : State), exec i s = .next t → s.sr.busBusy = false → t.sr.busBusy = true →
    (∃ v, i = .wrSr v) ∨
    (∃ (new : List Output) (a : BitVec 7) (d : Direction), t.out = s.out ++ new ∧ .busBegin a d .ok ∈ new)

/-- RD_CTR, RD_SR, RD_FIFO_CONF, RD_INT_CLR, RD_INT_ENA, RD_INT_ST, RD_CMD of every slot and RD_UNKNOWN answer the
same state with outputs appended that are no transport calls. RD_INT_RAW changes only INT_RAW, RD_DATA only RXQ
(and the draw counter, the model's own). That a read of INT_CLR returns a value and does nothing is the spec's
decision D17, what a read of DATA does with RXQ empty D15 (log entries 6, 7 and 19).
(R68, R132, R134, R136, R142, R144, R145, R148, R149, R138, R139, 92_eei_decisions.md D15, D17.) -/
def Obligations.PlainReadsHaveNoSideEffect : Prop :=
  ∀ s : State,
    (∀ i ∈ [Instr.rdCtr, .rdSr, .rdFifoConf, .rdIntClr, .rdIntEna, .rdIntSt] ++ (List.finRange 16).map rdCmd,
      ∃ w : Word, exec i s = .next { s with out := s.out ++ [.reply w] }) ∧
    (∀ off : Nat, exec (.rdUnknown off) s =
      .next { s with out := s.out ++ [.diag (.unknownOffsetRead off), .reply 0] }) ∧
    (∃ w : Word, exec .rdIntRaw s = .next { s with intRaw := 0, out := s.out ++ [.reply w] }) ∧
    (∃ (q : List Byte) (n : Nat) (new : List Output), new.filter Output.isBusCall = [] ∧
      exec .rdData s = .next { s with rxq := q, draws := n, out := s.out ++ new })
end

