-- ==== Sys2Proof/Laws/Encoding.lean ====
section
/-! SUPPORT. The lemmas of the bit-field helpers (a packed word read back field by field, and a word split and packed
again), of the byte order, of the command word and of the register map. -/

namespace Sys2Proof

/-! ### One field, bit by bit -/

theorem getLsbD_onesWord (w k : Nat) : (onesWord w).getLsbD k = (decide (k < 32) && decide (k < w)) := by
  simp [onesWord, BitVec.getLsbD_ofNat, Nat.testBit_two_pow_sub_one]

theorem BitField.getLsbD_get (f : BitField) (v : Word) (k : Nat) :
    (f.get v).getLsbD k = (decide (k < f.width) && v.getLsbD (f.lo + k)) := by
  simp only [BitField.get, BitVec.getLsbD_and, BitVec.getLsbD_ushiftRight, getLsbD_onesWord]
  by_cases hk : k < 32
  · simp [hk, Bool.and_comm]
  · simp [hk, show 32 ≤ f.lo + k by omega]

theorem BitField.getLsbD_place (f : BitField) (x : Word) (k : Nat) :
    (f.place x).getLsbD k =
      (decide (k < 32) && decide (f.lo ≤ k) && decide (k < f.lo + f.width) && x.getLsbD (k - f.lo)) := by
  simp only [BitField.place, BitVec.getLsbD_shiftLeft, BitVec.getLsbD_and, getLsbD_onesWord]
  by_cases hk : k < 32
  · by_cases hl : f.lo ≤ k
    · have h1 : k - f.lo < 32 := by omega
      have h2 : (k - f.lo < f.width) ↔ (k < f.lo + f.width) := by omega
      simp [hk, hl, h1, h2, Nat.not_lt.mpr hl, Bool.and_comm]
    · simp [hk, hl, Nat.lt_of_not_le hl]
  · simp [hk]

theorem BitField.getLsbD_mask (f : BitField) (k : Nat) :
    f.mask.getLsbD k = (decide (k < 32) && decide (f.lo ≤ k) && decide (k < f.lo + f.width)) := by
  simp only [BitField.mask, BitVec.getLsbD_shiftLeft, getLsbD_onesWord]
  by_cases hk : k < 32
  · by_cases hl : f.lo ≤ k
    · have h1 : k - f.lo < 32 := by omega
      have h2 : (k - f.lo < f.width) ↔ (k < f.lo + f.width) := by omega
      simp [hk, hl, h1, h2, Nat.not_lt.mpr hl]
    · simp [hk, hl, Nat.lt_of_not_le hl]
  · simp [hk]

/-- A field's value has no bit beyond the field's width. -/
theorem BitField.get_fits (f : BitField) (v : Word) : f.get v &&& onesWord f.width = f.get v := by
  rw [BitField.get, BitVec.and_assoc, BitVec.and_self]

/-- Taking a field out and putting it back keeps the bits of the field. -/
theorem BitField.place_get (f : BitField) (v : Word) : f.place (f.get v) = v &&& f.mask := by
  refine BitVec.eq_of_getLsbD_eq fun k hk => ?_
  rw [BitField.getLsbD_place, BitVec.getLsbD_and, BitField.getLsbD_mask, BitField.getLsbD_get]
  by_cases hl : f.lo ≤ k
  · by_cases hw : k < f.lo + f.width
    · simp [hk, hl, hw, show k - f.lo < f.width by omega, show f.lo + (k - f.lo) = k by omega]
    · simp [hw]
  · simp [hl]

theorem getLsbD_wordOfBool (b : Bool) (k : Nat) : (wordOfBool b).getLsbD k = (decide (k = 0) && b) := by
  simp only [wordOfBool, BitVec.getLsbD_setWidth]
  rcases k with _ | k
  · simp
  · simp

/-- The value of a one-bit field is its flag. -/
theorem BitField.get_of_flag {f : BitField} (hf : f.width = 1) (v : Word) : f.get v = wordOfBool (f.bit v) := by
  refine BitVec.eq_of_getLsbD_eq fun k _ => ?_
  rw [BitField.getLsbD_get, getLsbD_wordOfBool, hf, BitField.bit]
  rcases k with _ | k
  · simp
  · simp

theorem BitField.place_flag {f : BitField} (hf : f.width = 1) (v : Word) :
    f.place (wordOfBool (f.bit v)) = v &&& f.mask := by
  rw [← BitField.get_of_flag hf, BitField.place_get]

/-- A flag placed is its one bit. -/
theorem BitField.getLsbD_place_flag {f : BitField} (hf : f.width = 1) (b : Bool) (k : Nat) :
    (f.place (wordOfBool b)).getLsbD k = (decide (k < 32) && decide (k = f.lo) && b) := by
  rw [BitField.getLsbD_place, getLsbD_wordOfBool, hf]
  by_cases hk : k = f.lo
  · subst hk; simp
  · by_cases hl : f.lo ≤ k
    · simp [hk, show ¬ k < f.lo + 1 by omega]
    · simp [hk, hl]

/-! ### A packed register -/

theorem BitField.disjoint_symm {f g : BitField} : f.disjoint g = g.disjoint f := by
  simp [BitField.disjoint, Bool.or_comm]

/-- A bit of a packed word that no field covers is 0 (R42). -/
theorem packFields_outside (l : List (BitField × Word)) {k : Nat}
    (h : ∀ p ∈ l, k < p.1.lo ∨ p.1.lo + p.1.width ≤ k) : (packFields l).getLsbD k = false := by
  induction l with
  | nil => simp [packFields]
  | cons p l ih =>
    obtain ⟨f, x⟩ := p
    rw [packFields, BitVec.getLsbD_or, ih fun q hq => h q (List.mem_cons_of_mem _ hq), BitField.getLsbD_place]
    have := h (f, x) (List.mem_cons_self ..)
    simp only at this
    rcases this with h1 | h1
    · simp [Nat.not_le.mpr h1]
    · simp [Nat.not_lt.mpr h1]

/-- A field of a packed word reads as the value it was packed with, bit by bit. -/
theorem packFields_getLsbD {l : List (BitField × Word)} (ok : fieldsOk (l.map Prod.fst) = true) {f : BitField} {x : Word}
    (hm : (f, x) ∈ l) {j : Nat} (hj : j < f.width) : (packFields l).getLsbD (f.lo + j) = x.getLsbD j := by
  induction l with
  | nil => cases hm
  | cons p l ih =>
    obtain ⟨g, y⟩ := p
    simp only [List.map_cons, fieldsOk, Bool.and_eq_true, decide_eq_true_eq, List.all_eq_true, List.mem_map,
      forall_exists_index, and_imp, forall_apply_eq_imp_iff₂] at ok
    obtain ⟨⟨⟨hw, hr⟩, hd⟩, okl⟩ := ok
    rw [packFields, BitVec.getLsbD_or]
    rcases List.mem_cons.mp hm with h | h
    · cases h
      rw [packFields_outside l (k := f.lo + j) fun q hq => ?_, BitField.getLsbD_place]
      · simp [show f.lo + j < 32 by omega, hj]
      · have := hd q hq
        simp only [BitField.disjoint, Bool.or_eq_true, decide_eq_true_eq] at this
        omega
    · have := hd (f, x) h
      simp only [BitField.disjoint, Bool.or_eq_true, decide_eq_true_eq] at this
      rw [ih okl h, BitField.getLsbD_place]
      rcases this with h1 | h1
      · simp [show ¬ f.lo + j < g.lo + g.width by omega]
      · simp [show ¬ g.lo ≤ f.lo + j by omega]

/-- A field of a packed word has the value it was packed with, cut to the field's width. -/
theorem packFields_get {l : List (BitField × Word)} (ok : fieldsOk (l.map Prod.fst) = true) {f : BitField} {x : Word}
    (hm : (f, x) ∈ l) : f.get (packFields l) = x &&& onesWord f.width := by
  refine BitVec.eq_of_getLsbD_eq fun k hk => ?_
  rw [BitField.getLsbD_get, BitVec.getLsbD_and, getLsbD_onesWord]
  by_cases hw : k < f.width
  · rw [packFields_getLsbD ok hm hw]; simp [hw, hk]
  · simp [hw]

/-- A flag of a packed word is the flag it was packed with. -/
theorem packFields_bit {l : List (BitField × Word)} (ok : fieldsOk (l.map Prod.fst) = true) {f : BitField} {b : Bool}
    (hm : (f, wordOfBool b) ∈ l) (hf : f.width = 1) : f.bit (packFields l) = b := by
  have := packFields_getLsbD ok hm (j := 0) (by omega)
  rw [getLsbD_wordOfBool] at this
  simpa [BitField.bit] using this

/-- Packing two lists is packing their concatenation. -/
theorem packFields_append (l m : List (BitField × Word)) : packFields (l ++ m) = packFields l ||| packFields m := by
  induction l with
  | nil => simp [packFields]
  | cons p l ih => rw [List.cons_append, packFields, packFields, ih, BitVec.or_assoc]

/-- A word split into fields and packed again keeps the bits of the fields. -/
theorem packFields_fields (l : List BitField) (v : Word) :
    packFields (l.map fun f => (f, f.get v)) = v &&& definedBits l := by
  induction l with
  | nil => simp [packFields, definedBits]
  | cons f l ih => rw [List.map_cons, packFields, ih, BitField.place_get, definedBits, BitVec.and_or_distrib_left]

/-- The bits of a register's fields, one by one. -/
theorem getLsbD_definedBits (l : List BitField) (k : Nat) :
    (definedBits l).getLsbD k = l.any fun f => f.mask.getLsbD k := by
  induction l with
  | nil => simp [definedBits]
  | cons f l ih => rw [definedBits, BitVec.getLsbD_or, ih, List.any_cons]

/-- The value of a field of fixed width, cut to that width and widened again. -/
theorem BitField.setWidth_get {f : BitField} {w : Nat} (hf : f.width = w) (v : Word) :
    ((f.get v).setWidth w).setWidth 32 = f.get v := by
  refine BitVec.eq_of_getLsbD_eq fun k hk => ?_
  rw [BitVec.getLsbD_setWidth, BitVec.getLsbD_setWidth, BitField.getLsbD_get, hf]
  by_cases h : k < w <;> simp [h, hk]

/-! ### What `Layout.wf` says -/

/-- Every field of a list of flags is one bit wide. -/
theorem allFlags_width {l : List BitField} (h : allFlags l = true) {f : BitField} (hf : f ∈ l) : f.width = 1 := by
  simpa using List.all_eq_true.mp h f hf

theorem Layout.wf_ctr {L : Layout} (h : L.wf = true) :
    fieldsOk L.ctr.fields = true ∧ allFlags L.ctr.fields = true := by
  simp only [Layout.wf, Bool.and_eq_true] at h; exact h.1.1.1.1

theorem Layout.wf_sr {L : Layout} (h : L.wf = true) :
    fieldsOk L.sr.fields = true ∧ allFlags L.sr.flags = true ∧ L.sr.rxFifoCnt.width = 6 ∧ L.sr.txFifoCnt.width = 6 := by
  simp only [Layout.wf, Bool.and_eq_true, beq_iff_eq] at h
  obtain ⟨⟨⟨a, b⟩, c⟩, d⟩ := h.1.1.1.2
  exact ⟨a, b, c, d⟩

theorem Layout.wf_fifoConf {L : Layout} (h : L.wf = true) :
    fieldsOk L.fifoConf.fields = true ∧ allFlags L.fifoConf.flags = true := by
  simp only [Layout.wf, Bool.and_eq_true] at h; exact h.1.1.2

/-- What a `LAYOUT` says of the command word. -/
theorem Layout.wf_cmd {L : Layout} (h : L.wf = true) :
    fieldsOk (doneField :: L.cmd.fields) = true ∧ L.cmd.ackEn.width = 1 ∧ L.cmd.ackExp.width = 1 ∧
      L.cmd.ackVal.width = 1 ∧ L.cmd.byteNum.width = 8 ∧ L.cmd.opCode.width = 3 := by
  simp only [Layout.wf, Bool.and_eq_true, beq_iff_eq] at h
  obtain ⟨⟨⟨a, b⟩, c⟩, d⟩ := h.1.2
  exact ⟨a, allFlags_width b (by simp), allFlags_width b (by simp), allFlags_width b (by simp), c, d⟩

theorem Layout.wf_events {L : Layout} (h : L.wf = true) :
    (∀ k ∈ L.events.bits, k < 16) ∧ L.events.bits.Nodup := by
  simp only [Layout.wf, Bool.and_eq_true, List.all_eq_true, decide_eq_true_eq] at h
  exact h.2

theorem Params.wf_layout {p : Params} (h : p.wf = true) : p.layout.wf = true := by
  simp only [Params.wf, Bool.and_eq_true] at h; exact h.1.1.1

theorem Params.wf_window {p : Params} (h : p.wf = true) : p.windowBytes % 4 = 0 ∧ 0x98 ≤ p.windowBytes := by
  simp only [Params.wf, Bool.and_eq_true, beq_iff_eq, decide_eq_true_eq] at h; exact h.1.1.2

/-! ### The command word -/

/-- The fields of the command word are the ones it was made of. -/
theorem commandWord_fields {L : Layout} (h : L.wf = true) (op : BitVec 3) (n : BitVec 8) (en ex av : Bool) :
    L.cmd.opCodeOf (commandWord L.cmd op n en ex av) = op ∧ L.cmd.byteNumOf (commandWord L.cmd op n en ex av) = n ∧
    L.cmd.ackEn.bit (commandWord L.cmd op n en ex av) = en ∧
    L.cmd.ackExp.bit (commandWord L.cmd op n en ex av) = ex ∧
    L.cmd.ackVal.bit (commandWord L.cmd op n en ex av) = av := by
  obtain ⟨ok, h1, h2, h3, h4, h5⟩ := Layout.wf_cmd h
  have ok' : fieldsOk (([(L.cmd.opCode, op.setWidth 32), (L.cmd.ackVal, wordOfBool av), (L.cmd.ackExp, wordOfBool ex),
      (L.cmd.ackEn, wordOfBool en), (L.cmd.byteNum, n.setWidth 32)] : List (BitField × Word)).map Prod.fst) = true := by
    simp only [fieldsOk, Bool.and_eq_true] at ok
    simpa [fieldsOk, CmdLayout.fields] using ok.2
  refine ⟨?_, ?_, packFields_bit ok' (by simp) h1, packFields_bit ok' (by simp) h2, packFields_bit ok' (by simp) h3⟩
  · refine BitVec.eq_of_getLsbD_eq fun k hk => ?_
    rw [CmdLayout.opCodeOf, BitVec.getLsbD_setWidth, BitField.getLsbD_get, commandWord]
    rw [packFields_getLsbD ok' (x := op.setWidth 32) (by simp) (by omega), BitVec.getLsbD_setWidth]
    simp [hk, show k < 32 by omega, h5]
  · refine BitVec.eq_of_getLsbD_eq fun k hk => ?_
    rw [CmdLayout.byteNumOf, BitVec.getLsbD_setWidth, BitField.getLsbD_get, commandWord]
    rw [packFields_getLsbD ok' (x := n.setWidth 32) (by simp) (by omega), BitVec.getLsbD_setWidth]
    simp [hk, show k < 32 by omega, h4]

/-- Decoding the command word of five fields gives the command of its opcode and its fields. -/
theorem decodeCommand_commandWord {L : Layout} (h : L.wf = true) (op : BitVec 3) (n : BitVec 8) (en ex av : Bool) :
    decodeCommand L.cmd (commandWord L.cmd op n en ex av) = commandOf (opcodeOf op) n en ex av := by
  obtain ⟨h1, h2, h3, h4, h5⟩ := commandWord_fields h op n en ex av
  rw [decodeCommand, h1, h2, h3, h4, h5]

/-- The command word of a word's own fields keeps the bits of the fields. -/
theorem commandWord_of_fields {L : Layout} (h : L.wf = true) (w : Word) :
    commandWord L.cmd (L.cmd.opCodeOf w) (L.cmd.byteNumOf w) (L.cmd.ackEn.bit w) (L.cmd.ackExp.bit w)
      (L.cmd.ackVal.bit w) = w &&& definedBits L.cmd.fields := by
  obtain ⟨-, h1, h2, h3, h4, h5⟩ := Layout.wf_cmd h
  rw [← packFields_fields]
  simp only [commandWord, CmdLayout.fields, CmdLayout.opCodeOf, CmdLayout.byteNumOf, List.map_cons, List.map_nil,
    BitField.setWidth_get h4, BitField.setWidth_get h5, BitField.get_of_flag h1,
    BitField.get_of_flag h2, BitField.get_of_flag h3]

/-- Encoding a command is the command word of the opcode it was decoded from. -/
theorem encode_commandOf (L : CmdLayout) (op : BitVec 3) (n : BitVec 8) (en ex av : Bool) :
    encode L (commandOf (opcodeOf op) n en ex av) = .cmd (commandWord L op n en ex av) := by
  have : ∀ o : BitVec 3, o = 0 ∨ o = 1 ∨ o = 2 ∨ o = 3 ∨ o = 4 ∨ o = 5 ∨ o = 6 ∨ o = 7 := by decide
  rcases this op with h | h | h | h | h | h | h | h <;> subst h <;> rfl

/-! ### Host accesses -/

/-- Four bytes in wire order make the value they were taken from (R65). -/
theorem wordOfBytes_bytesOfWord (v : Word) : wordOfBytes (bytesOfWord v) = some v := by
  simp only [wordOfBytes, bytesOfWord, Option.some.injEq]
  refine BitVec.eq_of_getLsbD_eq fun i hi => ?_
  simp only [BitVec.getLsbD_append, BitVec.getLsbD_extractLsb']
  have : i < 8 ∨ (8 ≤ i ∧ i < 16) ∨ (16 ≤ i ∧ i < 24) ∨ (24 ≤ i ∧ i < 32) := by omega
  rcases this with h | h | h | h
  · simp [h]
  · simp [show ¬ i < 8 by omega, show i - 8 < 8 by omega, show 8 + (i - 8) = i by omega]
  · simp [show ¬ i < 8 by omega, show ¬ i - 8 < 8 by omega, show i - 8 - 8 < 8 by omega,
      show 16 + (i - 8 - 8) = i by omega]
  · simp [show ¬ i < 8 by omega, show ¬ i - 8 < 8 by omega, show ¬ i - 8 - 8 < 8 by omega,
      show i - 8 - 8 - 8 < 8 by omega, show 24 + (i - 8 - 8 - 8) = i by omega]

/-- An admitted offset passes the check (R92). -/
theorem checkOffset_ok {window off : Nat} (aligned : off % 4 = 0) (inside : off < window) :
    checkOffset window off = .ok () := by
  simp [checkOffset, aligned, Nat.not_le.mpr inside]

/-- An admitted 4-byte read decodes to the operation of its offset. -/
theorem decode_readAt {p : Params} {off : Nat} (aligned : off % 4 = 0) (inside : off < p.windowBytes) :
    decode p (readAt off) = .ok (readInstr off) := by
  simp [decode, readAt, decodeAccess, checkOffset_ok aligned inside, Except.map]

/-- An admitted 4-byte write decodes to the operation of its offset. -/
theorem decode_writeAt {p : Params} {off : Nat} (v : Word) (aligned : off % 4 = 0) (inside : off < p.windowBytes) :
    decode p (writeAt off v) = .ok (writeInstr off v) := by
  simp [decode, writeAt, decodeAccess, wordOfBytes_bytesOfWord, checkOffset_ok aligned inside, Except.map]

/-- An offset outside the register map has no row. -/
theorem rowAt_of_unmapped {off : Nat} (h : isMapped off = false) : rowAt off = none := by
  obtain ⟨hregs, hslots⟩ := by simpa [isMapped] using h
  have offs : ∀ r ∈ registerMap, r.off ∈ [0x04, 0x08, 0x18, 0x1c, 0x20, 0x24, 0x28, 0x2c] ∨
      (0x58 ≤ r.off ∧ r.off ≤ 0x94 ∧ r.off % 4 = 0) := by
    intro r hr
    simp only [registerMap, registerRows, lowSlotRows, highSlotRows, List.cons_append, List.nil_append,
      List.mem_cons, List.not_mem_nil, or_false] at hr
    rcases hr with h | h | h | h | h | h | h | h | h | h | h | h | h | h | h | h | h | h | h | h | h | h | h | h <;>
      subst h <;> decide
  simp only [rowAt, List.find?_eq_none, beq_iff_eq]
  intro r hr
  have := offs r hr
  simp only [List.mem_cons, List.not_mem_nil, or_false] at this
  omega

/-- No two rows of the register map share an offset. -/
theorem registerMap_offsets_distinct : (registerMap.map MapRow.off).Nodup := by decide

end Sys2Proof
end

