-- ==== Sys2Proof/Laws/State.lean ====
section
/-! SUPPORT. One lemma per field per update of the state, so that no later proof unfolds a record update. -/

namespace Sys2Proof.Machine

variable (s : State)

/-! ### `emit` -/

@[simp] theorem emit_params (o : Output) : (emit o s).params = s.params := rfl
@[simp] theorem emit_ctr (o : Output) : (emit o s).ctr = s.ctr := rfl
@[simp] theorem emit_sr (o : Output) : (emit o s).sr = s.sr := rfl
@[simp] theorem emit_fifoConf (o : Output) : (emit o s).fifoConf = s.fifoConf := rfl
@[simp] theorem emit_intRaw (o : Output) : (emit o s).intRaw = s.intRaw := rfl
@[simp] theorem emit_intEna (o : Output) : (emit o s).intEna = s.intEna := rfl
@[simp] theorem emit_intSt (o : Output) : (emit o s).intSt = s.intSt := rfl
@[simp] theorem emit_cmd (o : Output) : (emit o s).cmd = s.cmd := rfl
@[simp] theorem emit_txq (o : Output) : (emit o s).txq = s.txq := rfl
@[simp] theorem emit_rxq (o : Output) : (emit o s).rxq = s.rxq := rfl
@[simp] theorem emit_irq (o : Output) : (emit o s).irq = s.irq := rfl
@[simp] theorem emit_fault (o : Output) : (emit o s).fault = s.fault := rfl
@[simp] theorem emit_cur (o : Output) : (emit o s).cur = s.cur := rfl
@[simp] theorem emit_host (o : Output) : (emit o s).host = s.host := rfl
@[simp] theorem emit_beginAnswers (o : Output) : (emit o s).beginAnswers = s.beginAnswers := rfl
@[simp] theorem emit_recvAnswers (o : Output) : (emit o s).recvAnswers = s.recvAnswers := rfl
@[simp] theorem emit_draws (o : Output) : (emit o s).draws = s.draws := rfl
@[simp] theorem emit_out (o : Output) : (emit o s).out = s.out ++ [o] := rfl

/-! ### `setBusBusy` -/

@[simp] theorem setBusBusy_params (b : Bool) : (setBusBusy b s).params = s.params := rfl
@[simp] theorem setBusBusy_ctr (b : Bool) : (setBusBusy b s).ctr = s.ctr := rfl
@[simp] theorem setBusBusy_sr (b : Bool) : (setBusBusy b s).sr = { s.sr with busBusy := b } := rfl
@[simp] theorem setBusBusy_fifoConf (b : Bool) : (setBusBusy b s).fifoConf = s.fifoConf := rfl
@[simp] theorem setBusBusy_intRaw (b : Bool) : (setBusBusy b s).intRaw = s.intRaw := rfl
@[simp] theorem setBusBusy_intEna (b : Bool) : (setBusBusy b s).intEna = s.intEna := rfl
@[simp] theorem setBusBusy_intSt (b : Bool) : (setBusBusy b s).intSt = s.intSt := rfl
@[simp] theorem setBusBusy_cmd (b : Bool) : (setBusBusy b s).cmd = s.cmd := rfl
@[simp] theorem setBusBusy_txq (b : Bool) : (setBusBusy b s).txq = s.txq := rfl
@[simp] theorem setBusBusy_rxq (b : Bool) : (setBusBusy b s).rxq = s.rxq := rfl
@[simp] theorem setBusBusy_irq (b : Bool) : (setBusBusy b s).irq = s.irq := rfl
@[simp] theorem setBusBusy_fault (b : Bool) : (setBusBusy b s).fault = s.fault := rfl
@[simp] theorem setBusBusy_cur (b : Bool) : (setBusBusy b s).cur = s.cur := rfl
@[simp] theorem setBusBusy_host (b : Bool) : (setBusBusy b s).host = s.host := rfl
@[simp] theorem setBusBusy_beginAnswers (b : Bool) : (setBusBusy b s).beginAnswers = s.beginAnswers := rfl
@[simp] theorem setBusBusy_recvAnswers (b : Bool) : (setBusBusy b s).recvAnswers = s.recvAnswers := rfl
@[simp] theorem setBusBusy_draws (b : Bool) : (setBusBusy b s).draws = s.draws := rfl
@[simp] theorem setBusBusy_out (b : Bool) : (setBusBusy b s).out = s.out := rfl

/-! ### `setAckRec` -/

@[simp] theorem setAckRec_params (b : Bool) : (setAckRec b s).params = s.params := rfl
@[simp] theorem setAckRec_ctr (b : Bool) : (setAckRec b s).ctr = s.ctr := rfl
@[simp] theorem setAckRec_sr (b : Bool) : (setAckRec b s).sr = { s.sr with ackRec := b } := rfl
@[simp] theorem setAckRec_fifoConf (b : Bool) : (setAckRec b s).fifoConf = s.fifoConf := rfl
@[simp] theorem setAckRec_intRaw (b : Bool) : (setAckRec b s).intRaw = s.intRaw := rfl
@[simp] theorem setAckRec_intEna (b : Bool) : (setAckRec b s).intEna = s.intEna := rfl
@[simp] theorem setAckRec_intSt (b : Bool) : (setAckRec b s).intSt = s.intSt := rfl
@[simp] theorem setAckRec_cmd (b : Bool) : (setAckRec b s).cmd = s.cmd := rfl
@[simp] theorem setAckRec_txq (b : Bool) : (setAckRec b s).txq = s.txq := rfl
@[simp] theorem setAckRec_rxq (b : Bool) : (setAckRec b s).rxq = s.rxq := rfl
@[simp] theorem setAckRec_irq (b : Bool) : (setAckRec b s).irq = s.irq := rfl
@[simp] theorem setAckRec_fault (b : Bool) : (setAckRec b s).fault = s.fault := rfl
@[simp] theorem setAckRec_cur (b : Bool) : (setAckRec b s).cur = s.cur := rfl
@[simp] theorem setAckRec_host (b : Bool) : (setAckRec b s).host = s.host := rfl
@[simp] theorem setAckRec_beginAnswers (b : Bool) : (setAckRec b s).beginAnswers = s.beginAnswers := rfl
@[simp] theorem setAckRec_recvAnswers (b : Bool) : (setAckRec b s).recvAnswers = s.recvAnswers := rfl
@[simp] theorem setAckRec_draws (b : Bool) : (setAckRec b s).draws = s.draws := rfl
@[simp] theorem setAckRec_out (b : Bool) : (setAckRec b s).out = s.out := rfl

/-! ### `setByteTrans` -/

@[simp] theorem setByteTrans_params : (setByteTrans s).params = s.params := rfl
@[simp] theorem setByteTrans_ctr : (setByteTrans s).ctr = s.ctr := rfl
@[simp] theorem setByteTrans_sr : (setByteTrans s).sr = { s.sr with byteTrans := true } := rfl
@[simp] theorem setByteTrans_fifoConf : (setByteTrans s).fifoConf = s.fifoConf := rfl
@[simp] theorem setByteTrans_intRaw : (setByteTrans s).intRaw = s.intRaw := rfl
@[simp] theorem setByteTrans_intEna : (setByteTrans s).intEna = s.intEna := rfl
@[simp] theorem setByteTrans_intSt : (setByteTrans s).intSt = s.intSt := rfl
@[simp] theorem setByteTrans_cmd : (setByteTrans s).cmd = s.cmd := rfl
@[simp] theorem setByteTrans_txq : (setByteTrans s).txq = s.txq := rfl
@[simp] theorem setByteTrans_rxq : (setByteTrans s).rxq = s.rxq := rfl
@[simp] theorem setByteTrans_irq : (setByteTrans s).irq = s.irq := rfl
@[simp] theorem setByteTrans_fault : (setByteTrans s).fault = s.fault := rfl
@[simp] theorem setByteTrans_cur : (setByteTrans s).cur = s.cur := rfl
@[simp] theorem setByteTrans_host : (setByteTrans s).host = s.host := rfl
@[simp] theorem setByteTrans_beginAnswers : (setByteTrans s).beginAnswers = s.beginAnswers := rfl
@[simp] theorem setByteTrans_recvAnswers : (setByteTrans s).recvAnswers = s.recvAnswers := rfl
@[simp] theorem setByteTrans_draws : (setByteTrans s).draws = s.draws := rfl
@[simp] theorem setByteTrans_out : (setByteTrans s).out = s.out := rfl

/-! ### `setSlot` -/

@[simp] theorem setSlot_params (i : Fin 16) (c : Slot) : (setSlot i c s).params = s.params := rfl
@[simp] theorem setSlot_ctr (i : Fin 16) (c : Slot) : (setSlot i c s).ctr = s.ctr := rfl
@[simp] theorem setSlot_sr (i : Fin 16) (c : Slot) : (setSlot i c s).sr = s.sr := rfl
@[simp] theorem setSlot_fifoConf (i : Fin 16) (c : Slot) : (setSlot i c s).fifoConf = s.fifoConf := rfl
@[simp] theorem setSlot_intRaw (i : Fin 16) (c : Slot) : (setSlot i c s).intRaw = s.intRaw := rfl
@[simp] theorem setSlot_intEna (i : Fin 16) (c : Slot) : (setSlot i c s).intEna = s.intEna := rfl
@[simp] theorem setSlot_intSt (i : Fin 16) (c : Slot) : (setSlot i c s).intSt = s.intSt := rfl
@[simp] theorem setSlot_cmd (i : Fin 16) (c : Slot) : (setSlot i c s).cmd = s.cmd.set i c := rfl
@[simp] theorem setSlot_txq (i : Fin 16) (c : Slot) : (setSlot i c s).txq = s.txq := rfl
@[simp] theorem setSlot_rxq (i : Fin 16) (c : Slot) : (setSlot i c s).rxq = s.rxq := rfl
@[simp] theorem setSlot_irq (i : Fin 16) (c : Slot) : (setSlot i c s).irq = s.irq := rfl
@[simp] theorem setSlot_fault (i : Fin 16) (c : Slot) : (setSlot i c s).fault = s.fault := rfl
@[simp] theorem setSlot_cur (i : Fin 16) (c : Slot) : (setSlot i c s).cur = s.cur := rfl
@[simp] theorem setSlot_host (i : Fin 16) (c : Slot) : (setSlot i c s).host = s.host := rfl
@[simp] theorem setSlot_beginAnswers (i : Fin 16) (c : Slot) : (setSlot i c s).beginAnswers = s.beginAnswers := rfl
@[simp] theorem setSlot_recvAnswers (i : Fin 16) (c : Slot) : (setSlot i c s).recvAnswers = s.recvAnswers := rfl
@[simp] theorem setSlot_draws (i : Fin 16) (c : Slot) : (setSlot i c s).draws = s.draws := rfl
@[simp] theorem setSlot_out (i : Fin 16) (c : Slot) : (setSlot i c s).out = s.out := rfl

/-! ### `markDone` -/

@[simp] theorem markDone_params : (markDone s).params = s.params := rfl
@[simp] theorem markDone_ctr : (markDone s).ctr = s.ctr := rfl
@[simp] theorem markDone_sr : (markDone s).sr = s.sr := rfl
@[simp] theorem markDone_fifoConf : (markDone s).fifoConf = s.fifoConf := rfl
@[simp] theorem markDone_intRaw : (markDone s).intRaw = s.intRaw := rfl
@[simp] theorem markDone_intEna : (markDone s).intEna = s.intEna := rfl
@[simp] theorem markDone_intSt : (markDone s).intSt = s.intSt := rfl
@[simp] theorem markDone_cmd : (markDone s).cmd = s.cmd.set s.cur { s.slot s.cur with done := true } := rfl
@[simp] theorem markDone_txq : (markDone s).txq = s.txq := rfl
@[simp] theorem markDone_rxq : (markDone s).rxq = s.rxq := rfl
@[simp] theorem markDone_irq : (markDone s).irq = s.irq := rfl
@[simp] theorem markDone_fault : (markDone s).fault = s.fault := rfl
@[simp] theorem markDone_cur : (markDone s).cur = s.cur := rfl
@[simp] theorem markDone_host : (markDone s).host = s.host := rfl
@[simp] theorem markDone_beginAnswers : (markDone s).beginAnswers = s.beginAnswers := rfl
@[simp] theorem markDone_recvAnswers : (markDone s).recvAnswers = s.recvAnswers := rfl
@[simp] theorem markDone_draws : (markDone s).draws = s.draws := rfl
@[simp] theorem markDone_out : (markDone s).out = s.out := rfl

/-! ### `setAckVal` -/

@[simp] theorem setAckVal_params (a b : Bool) : (setAckVal a b s).params = s.params := rfl
@[simp] theorem setAckVal_ctr (a b : Bool) : (setAckVal a b s).ctr = s.ctr := rfl
@[simp] theorem setAckVal_sr (a b : Bool) : (setAckVal a b s).sr = s.sr := rfl
@[simp] theorem setAckVal_fifoConf (a b : Bool) : (setAckVal a b s).fifoConf = s.fifoConf := rfl
@[simp] theorem setAckVal_intRaw (a b : Bool) : (setAckVal a b s).intRaw = s.intRaw := rfl
@[simp] theorem setAckVal_intEna (a b : Bool) : (setAckVal a b s).intEna = s.intEna := rfl
@[simp] theorem setAckVal_intSt (a b : Bool) : (setAckVal a b s).intSt = s.intSt := rfl
@[simp] theorem setAckVal_cmd (a b : Bool) : (setAckVal a b s).cmd = s.cmd.set s.cur { s.slot s.cur with ackVal := a && b } := rfl
@[simp] theorem setAckVal_txq (a b : Bool) : (setAckVal a b s).txq = s.txq := rfl
@[simp] theorem setAckVal_rxq (a b : Bool) : (setAckVal a b s).rxq = s.rxq := rfl
@[simp] theorem setAckVal_irq (a b : Bool) : (setAckVal a b s).irq = s.irq := rfl
@[simp] theorem setAckVal_fault (a b : Bool) : (setAckVal a b s).fault = s.fault := rfl
@[simp] theorem setAckVal_cur (a b : Bool) : (setAckVal a b s).cur = s.cur := rfl
@[simp] theorem setAckVal_host (a b : Bool) : (setAckVal a b s).host = s.host := rfl
@[simp] theorem setAckVal_beginAnswers (a b : Bool) : (setAckVal a b s).beginAnswers = s.beginAnswers := rfl
@[simp] theorem setAckVal_recvAnswers (a b : Bool) : (setAckVal a b s).recvAnswers = s.recvAnswers := rfl
@[simp] theorem setAckVal_draws (a b : Bool) : (setAckVal a b s).draws = s.draws := rfl
@[simp] theorem setAckVal_out (a b : Bool) : (setAckVal a b s).out = s.out := rfl

/-! ### `rxPush` -/

@[simp] theorem rxPush_params (b : Byte) : (rxPush b s).params = s.params := rfl
@[simp] theorem rxPush_ctr (b : Byte) : (rxPush b s).ctr = s.ctr := rfl
@[simp] theorem rxPush_sr (b : Byte) : (rxPush b s).sr = s.sr := rfl
@[simp] theorem rxPush_fifoConf (b : Byte) : (rxPush b s).fifoConf = s.fifoConf := rfl
@[simp] theorem rxPush_intRaw (b : Byte) : (rxPush b s).intRaw = s.intRaw := rfl
@[simp] theorem rxPush_intEna (b : Byte) : (rxPush b s).intEna = s.intEna := rfl
@[simp] theorem rxPush_intSt (b : Byte) : (rxPush b s).intSt = s.intSt := rfl
@[simp] theorem rxPush_cmd (b : Byte) : (rxPush b s).cmd = s.cmd := rfl
@[simp] theorem rxPush_txq (b : Byte) : (rxPush b s).txq = s.txq := rfl
@[simp] theorem rxPush_rxq (b : Byte) : (rxPush b s).rxq = s.rxq ++ [b] := rfl
@[simp] theorem rxPush_irq (b : Byte) : (rxPush b s).irq = s.irq := rfl
@[simp] theorem rxPush_fault (b : Byte) : (rxPush b s).fault = s.fault := rfl
@[simp] theorem rxPush_cur (b : Byte) : (rxPush b s).cur = s.cur := rfl
@[simp] theorem rxPush_host (b : Byte) : (rxPush b s).host = s.host := rfl
@[simp] theorem rxPush_beginAnswers (b : Byte) : (rxPush b s).beginAnswers = s.beginAnswers := rfl
@[simp] theorem rxPush_recvAnswers (b : Byte) : (rxPush b s).recvAnswers = s.recvAnswers := rfl
@[simp] theorem rxPush_draws (b : Byte) : (rxPush b s).draws = s.draws := rfl
@[simp] theorem rxPush_out (b : Byte) : (rxPush b s).out = s.out := rfl

/-! ### `takeFault` -/

@[simp] theorem takeFault_params (f : Fault) (k : Diag) : (takeFault f k s).params = s.params := rfl
@[simp] theorem takeFault_ctr (f : Fault) (k : Diag) : (takeFault f k s).ctr = s.ctr := rfl
@[simp] theorem takeFault_sr (f : Fault) (k : Diag) : (takeFault f k s).sr = s.sr := rfl
@[simp] theorem takeFault_fifoConf (f : Fault) (k : Diag) : (takeFault f k s).fifoConf = s.fifoConf := rfl
@[simp] theorem takeFault_intRaw (f : Fault) (k : Diag) : (takeFault f k s).intRaw = s.intRaw := rfl
@[simp] theorem takeFault_intEna (f : Fault) (k : Diag) : (takeFault f k s).intEna = s.intEna := rfl
@[simp] theorem takeFault_intSt (f : Fault) (k : Diag) : (takeFault f k s).intSt = s.intSt := rfl
@[simp] theorem takeFault_cmd (f : Fault) (k : Diag) : (takeFault f k s).cmd = s.cmd := rfl
@[simp] theorem takeFault_txq (f : Fault) (k : Diag) : (takeFault f k s).txq = s.txq := rfl
@[simp] theorem takeFault_rxq (f : Fault) (k : Diag) : (takeFault f k s).rxq = s.rxq := rfl
@[simp] theorem takeFault_irq (f : Fault) (k : Diag) : (takeFault f k s).irq = s.irq := rfl
@[simp] theorem takeFault_fault (f : Fault) (k : Diag) : (takeFault f k s).fault = some f := rfl
@[simp] theorem takeFault_cur (f : Fault) (k : Diag) : (takeFault f k s).cur = s.cur := rfl
@[simp] theorem takeFault_host (f : Fault) (k : Diag) : (takeFault f k s).host = s.host := rfl
@[simp] theorem takeFault_beginAnswers (f : Fault) (k : Diag) : (takeFault f k s).beginAnswers = s.beginAnswers := rfl
@[simp] theorem takeFault_recvAnswers (f : Fault) (k : Diag) : (takeFault f k s).recvAnswers = s.recvAnswers := rfl
@[simp] theorem takeFault_draws (f : Fault) (k : Diag) : (takeFault f k s).draws = s.draws := rfl
@[simp] theorem takeFault_out (f : Fault) (k : Diag) : (takeFault f k s).out = s.out ++ [.diag k] := rfl

/-! ### `afterEvent` -/

@[simp] theorem afterEvent_params (k : Nat) : (afterEvent k s).params = s.params := rfl
@[simp] theorem afterEvent_ctr (k : Nat) : (afterEvent k s).ctr = s.ctr := rfl
@[simp] theorem afterEvent_sr (k : Nat) : (afterEvent k s).sr = s.sr := rfl
@[simp] theorem afterEvent_fifoConf (k : Nat) : (afterEvent k s).fifoConf = s.fifoConf := rfl
@[simp] theorem afterEvent_intRaw (k : Nat) : (afterEvent k s).intRaw = s.intRaw ||| 1#16 <<< k := rfl
@[simp] theorem afterEvent_intEna (k : Nat) : (afterEvent k s).intEna = s.intEna := rfl
@[simp] theorem afterEvent_intSt (k : Nat) : (afterEvent k s).intSt = if s.intEna.getLsbD k then s.intSt ||| 1#16 <<< k else s.intSt := rfl
@[simp] theorem afterEvent_cmd (k : Nat) : (afterEvent k s).cmd = s.cmd := rfl
@[simp] theorem afterEvent_txq (k : Nat) : (afterEvent k s).txq = s.txq := rfl
@[simp] theorem afterEvent_rxq (k : Nat) : (afterEvent k s).rxq = s.rxq := rfl
@[simp] theorem afterEvent_irq (k : Nat) : (afterEvent k s).irq = (s.irq || s.intEna.getLsbD k) := rfl
@[simp] theorem afterEvent_fault (k : Nat) : (afterEvent k s).fault = s.fault := rfl
@[simp] theorem afterEvent_cur (k : Nat) : (afterEvent k s).cur = s.cur := rfl
@[simp] theorem afterEvent_host (k : Nat) : (afterEvent k s).host = s.host := rfl
@[simp] theorem afterEvent_beginAnswers (k : Nat) : (afterEvent k s).beginAnswers = s.beginAnswers := rfl
@[simp] theorem afterEvent_recvAnswers (k : Nat) : (afterEvent k s).recvAnswers = s.recvAnswers := rfl
@[simp] theorem afterEvent_draws (k : Nat) : (afterEvent k s).draws = s.draws := rfl
@[simp] theorem afterEvent_out (k : Nat) : (afterEvent k s).out = s.out ++ (if s.intEna.getLsbD k && !s.irq then [.irq true] else []) := rfl

/-! ### `clearTrigger` -/

@[simp] theorem clearTrigger_params : (clearTrigger s).params = s.params := rfl
@[simp] theorem clearTrigger_ctr : (clearTrigger s).ctr = { s.ctr with transStart := false } := rfl
@[simp] theorem clearTrigger_sr : (clearTrigger s).sr = s.sr := rfl
@[simp] theorem clearTrigger_fifoConf : (clearTrigger s).fifoConf = s.fifoConf := rfl
@[simp] theorem clearTrigger_intRaw : (clearTrigger s).intRaw = s.intRaw := rfl
@[simp] theorem clearTrigger_intEna : (clearTrigger s).intEna = s.intEna := rfl
@[simp] theorem clearTrigger_intSt : (clearTrigger s).intSt = s.intSt := rfl
@[simp] theorem clearTrigger_cmd : (clearTrigger s).cmd = s.cmd := rfl
@[simp] theorem clearTrigger_txq : (clearTrigger s).txq = s.txq := rfl
@[simp] theorem clearTrigger_rxq : (clearTrigger s).rxq = s.rxq := rfl
@[simp] theorem clearTrigger_irq : (clearTrigger s).irq = s.irq := rfl
@[simp] theorem clearTrigger_fault : (clearTrigger s).fault = s.fault := rfl
@[simp] theorem clearTrigger_cur : (clearTrigger s).cur = s.cur := rfl
@[simp] theorem clearTrigger_host : (clearTrigger s).host = s.host := rfl
@[simp] theorem clearTrigger_beginAnswers : (clearTrigger s).beginAnswers = s.beginAnswers := rfl
@[simp] theorem clearTrigger_recvAnswers : (clearTrigger s).recvAnswers = s.recvAnswers := rfl
@[simp] theorem clearTrigger_draws : (clearTrigger s).draws = s.draws := rfl
@[simp] theorem clearTrigger_out : (clearTrigger s).out = s.out := rfl

/-! ### Slots -/

/-- Reading a slot after writing one. -/
theorem setSlot_slot (i j : Fin 16) (c : Slot) : (setSlot i c s).slot j = if i = j then c else s.slot j := by
  simp only [State.slot, setSlot, Fin.getElem_fin, Vector.getElem_set, Fin.val_inj]

/-- The slots of a state whose slot array is another's with one slot written. -/
theorem slot_of_cmd_set {s t : State} {i : Fin 16} {c : Slot} (h : t.cmd = s.cmd.set i c) (j : Fin 16) :
    t.slot j = if i = j then c else s.slot j := by
  rw [← setSlot_slot s i j c]
  simp only [State.slot, h, setSlot]

@[simp] theorem setSlot_slot_self (i : Fin 16) (c : Slot) : (setSlot i c s).slot i = c := by
  simp [setSlot_slot]

theorem setSlot_slot_ne {i j : Fin 16} (h : i ≠ j) (c : Slot) : (setSlot i c s).slot j = s.slot j := by
  simp [setSlot_slot, h]

/-- Marking the slot under the cursor done. -/
theorem markDone_slot (j : Fin 16) :
    (markDone s).slot j = if s.cur = j then { s.slot s.cur with done := true } else s.slot j :=
  setSlot_slot s s.cur j _

/-- Writing `ack_val` of the slot under the cursor. -/
theorem setAckVal_slot (a b : Bool) (j : Fin 16) :
    (setAckVal a b s).slot j = if s.cur = j then { s.slot s.cur with ackVal := a && b } else s.slot j :=
  setSlot_slot s s.cur j _

@[simp] theorem emit_slot (o : Output) (i : Fin 16) : (emit o s).slot i = s.slot i := rfl
@[simp] theorem setBusBusy_slot (b : Bool) (i : Fin 16) : (setBusBusy b s).slot i = s.slot i := rfl
@[simp] theorem setAckRec_slot (b : Bool) (i : Fin 16) : (setAckRec b s).slot i = s.slot i := rfl
@[simp] theorem setByteTrans_slot (i : Fin 16) : (setByteTrans s).slot i = s.slot i := rfl
@[simp] theorem rxPush_slot (b : Byte) (i : Fin 16) : (rxPush b s).slot i = s.slot i := rfl
@[simp] theorem afterEvent_slot (k : Nat) (i : Fin 16) : (afterEvent k s).slot i = s.slot i := rfl

/-- `allDone` marks each slot done and keeps its other fields. -/
@[simp] theorem allDone_getElem (cmd : Vector Slot 16) (i : Nat) (h : i < 16) :
    (allDone cmd)[i] = { cmd[i] with done := true } := by
  simp [allDone]

/-! ### One spelling for outputs -/

@[simp] theorem emitDiag_eq (k : Diag) : emitDiag k s = emit (.diag k) s := rfl
@[simp] theorem reply_eq (v : Word) : reply v s = emit (.reply v) s := rfl
@[simp] theorem busSend_eq (b : Byte) : busSend b s = emit (.busSend b) s := rfl
@[simp] theorem busEnd_eq : busEnd s = emit .busEnd s := rfl

end Sys2Proof.Machine
end

