-- ==== Sys2Proof/Laws/Ops.lean ====
section
/-! SUPPORT. What each shared operation does, said once: the lemmas that proofs cite instead of unfolding it. -/

namespace Sys2Proof.Machine

/-! ### Sequencing -/

@[simp] theorem andThen_next (s : State) (f : State → Result) : andThen (.next s) f = f s := rfl

@[simp] theorem andThen_fault (e : Fault) (f : State → Result) : andThen (.fault e) f = .fault e := rfl

@[simp] theorem andThen_refused (e : Refusal) (f : State → Result) : andThen (.refused e) f = .refused e := rfl

/-- A sequence answers a next state exactly when its parts do. -/
theorem andThen_eq_next {r : Result} {f : State → Result} {t : State} :
    andThen r f = .next t ↔ ∃ s, r = .next s ∧ f s = .next t := by
  cases r <;> simp [andThen]

/-- A sequence refuses exactly when its first part does, or goes on and its second does. -/
theorem andThen_eq_refused {r : Result} {f : State → Result} {e : Refusal} :
    andThen r f = .refused e ↔ r = .refused e ∨ ∃ s, r = .next s ∧ f s = .refused e := by
  cases r <;> simp [andThen]

theorem andThen_assoc (r : Result) (f g : State → Result) :
    andThen (andThen r f) g = andThen r (fun s => andThen (f s) g) := by
  cases r <;> rfl

/-! ### The line and the latch -/

/-- Setting the line puts out an edge exactly when the level changes. -/
theorem setLine_eq (level : Bool) (s : State) :
    setLine level s = { s with irq := level, out := s.out ++ (if s.irq = level then [] else [.irq level]) } := by
  unfold setLine
  split
  · next h => subst h; simp
  · rfl

/-- Raising an event is its closed form (R233). -/
theorem raiseIrq_eq (e : Event) (s : State) : raiseIrq e s = afterEvent (s.bitOf e) s := by
  unfold raiseIrq afterEvent State.bitOf
  split
  · next h =>
    rw [setLine_eq]
    cases s.irq <;> simp [h, eventMask]
  · next h => simp [h, eventMask]

/-- Clearing (R236). -/
theorem clearIrq_eq (s : State) :
    clearIrq s = { s with intSt := 0, irq := false, out := s.out ++ (if s.irq then [.irq false] else []) } := by
  rw [clearIrq, setLine_eq]
  cases s.irq <;> simp

/-- The sixteen events in the order of R231. -/
def allEvents : List Event :=
  [.rxFifoFull, .txFifoEmpty, .rxFifoOvf, .endDetect, .slaveTranComp, .arbitrationLost, .masterTranComp, .transComplete,
    .timeOut, .transStart, .ackErr, .rxRecFull, .txSendEmpty, .sclStTo, .sclMainStTo, .detStart]

theorem mem_allEvents (e : Event) : e ∈ allEvents := by cases e <;> decide

theorem eventLayout_bits_eq (L : EventLayout) : L.bits = allEvents.map (eventBit L) := rfl

/-- Under a `LAYOUT` every event has a bit of 15:0 (R98). -/
theorem eventBit_lt {L : Layout} (h : L.wf = true) (e : Event) : eventBit L.events e < 16 :=
  (Layout.wf_events h).1 _ (by rw [eventLayout_bits_eq]; exact List.mem_map_of_mem (mem_allEvents e))

/-- Under a `LAYOUT` no two events share a bit. -/
theorem eventBit_injective {L : Layout} (h : L.wf = true) {e f : Event} (he : eventBit L.events e = eventBit L.events f) :
    e = f := by
  have nodup := (Layout.wf_events h).2
  rw [eventLayout_bits_eq] at nodup
  exact List.inj_on_of_nodup_map nodup (mem_allEvents e) (mem_allEvents f) he

/-! ### FIFOs -/

theorem txPop_nil {s : State} (h : s.txq = []) : txPop s = none := by simp [txPop, h]

theorem txPop_cons {s : State} {b : Byte} {q : List Byte} (h : s.txq = b :: q) :
    txPop s = some (b, { s with txq := q }) := by simp [txPop, h]

/-- A push leaves at most 32 bytes, and the ones that were there in front. -/
theorem txPushHost_txq (b : Byte) (s : State) :
    (txPushHost b s).txq = if s.txq.length = 32 then s.txq else s.txq ++ [b] := by
  unfold txPushHost
  split <;> rfl

/-! ### The transport -/

/-- What `Bus.begin` does: it puts out the call with the answer, and takes a scripted answer or draws one. -/
theorem busBegin_cases (a : BitVec 7) (d : Direction) (s : State) :
    ∃ r answers draws, busBegin a d s =
      (r, { s with beginAnswers := answers, draws := draws, out := s.out ++ [.busBegin a d r] }) := by
  unfold busBegin
  split
  · exact ⟨_, _, s.draws, rfl⟩
  · next h => exact ⟨_, s.beginAnswers, _, rfl⟩

/-- What `Bus.recv` does: it puts out the call with the byte, and takes a scripted byte or draws one. -/
theorem busRecv_cases (s : State) :
    ∃ b answers draws, busRecv s =
      (b, { s with recvAnswers := answers, draws := draws, out := s.out ++ [.busRecv b] }) := by
  unfold busRecv
  split
  · exact ⟨_, _, s.draws, rfl⟩
  · next h => exact ⟨_, s.recvAnswers, _, rfl⟩

theorem busBegin_scripted {s : State} {r : BeginResult} {rs : List BeginResult} (h : s.beginAnswers = r :: rs)
    (a : BitVec 7) (d : Direction) :
    busBegin a d s = (r, { s with beginAnswers := rs, out := s.out ++ [.busBegin a d r] }) := by
  simp [busBegin, h, emit]

/-! ### WRITE's data phase -/

/-- The loop of the data phase is its closed form (R196). -/
theorem sendLoop_eq (r : Nat) (s : State) : sendLoop r s = afterSends r s := by
  induction r generalizing s with
  | zero => simp [sendLoop, afterSends]
  | succ r ih =>
    unfold sendLoop
    cases hq : s.txq with
    | nil =>
      rw [txPop_nil hq, raiseIrq_eq]
      simp only [afterSends, State.bitOf, hq, List.length_nil, Nat.zero_lt_succ, if_true, List.take_nil, List.drop_nil]
      congr 1
      cases s
      simp_all
    | cons b q =>
      rw [txPop_cons hq]
      simp only [ih]
      simp [afterSends, State.bitOf, hq, sendByte, setByteTrans, busSend, emit]

/-- The data phase is the loop and then `tx_send_empty`. -/
theorem dataPhase_eq (r : Nat) (s : State) :
    dataPhase r s = afterEvent (s.bitOf .txSendEmpty) (afterSends r s) := by
  rw [dataPhase, raiseIrq_eq, sendLoop_eq, State.bitOf, State.bitOf, show (afterSends r s).params = s.params by unfold afterSends; split <;> rfl]

/-! ### Reset -/

/-- Reset keeps a slot's fields and marks it done (R270). -/
theorem resetBlock_slot (s : State) (i : Fin 16) :
    (resetBlock s).slot i = { s.slot i with done := true } := by
  simp [resetBlock, rxReset, txReset, State.slot]

/-- Everything reset does but to the slots (R270). -/
theorem resetBlock_eq (s : State) :
    resetBlock s = { s with
      ctr := Ctr.atReset, sr := Sr.atReset, fifoConf := FifoConf.ofWord s.params.layout.fifoConf s.params.fifoConfReset
      intRaw := 0, intEna := 0, intSt := 0, cmd := allDone s.cmd, txq := [], rxq := [], irq := false
      out := s.out ++ (if s.irq then [.irq false] else []) } := by
  rw [resetBlock, setLine_eq]
  cases s.irq <;> simp [txReset, rxReset]

end Sys2Proof.Machine
end

