-- ==== Sys2Proof/Laws/Engine.lean ====
section
/-! SUPPORT. What the engine can do, said once: a pass is a chain of the elementary effects of `EngineStep`, so an
invariant or a monotone relation is proved of a pass by looking at each effect once. -/

namespace Sys2Proof.Machine

/-- The eight events the engine raises (R232). -/
def engineRaises : Event → Bool
  | .rxFifoFull | .txFifoEmpty | .rxFifoOvf | .endDetect | .transComplete | .transStart | .ackErr | .txSendEmpty => true
  | .slaveTranComp | .arbitrationLost | .masterTranComp | .timeOut | .rxRecFull | .sclStTo | .sclMainStTo
  | .detStart => false

/-- The elementary effects of the engine. -/
inductive EngineStep : State → State → Prop where
  | event (s : State) (e : Event) (h : engineRaises e = true) : EngineStep s (afterEvent (s.bitOf e) s)
  | endTransfer (s : State) :
    EngineStep s { s with sr := { s.sr with busBusy := false }, out := s.out ++ [.busEnd] }
  | beginOk (s : State) (b : Byte) (q : List Byte) (answers : List BeginResult) (draws : Nat) (v : Bool)
      (hq : s.txq = b :: q) (idle : s.sr.busBusy = false) (pending : (s.slot s.cur).done = false) :
    EngineStep s { s with
      txq := q, beginAnswers := answers, draws := draws
      sr := { s.sr with busBusy := true, ackRec := true, byteTrans := true }
      cmd := s.cmd.set s.cur { s.slot s.cur with ackVal := v }
      out := s.out ++ [.busBegin (addressOf b) (directionOf b) .ok] }
  | beginNack (s : State) (b : Byte) (q : List Byte) (answers : List BeginResult) (draws : Nat) (hq : s.txq = b :: q) :
    EngineStep s { s with
      txq := q, beginAnswers := answers, draws := draws, sr := { s.sr with ackRec := false }
      out := s.out ++ [.busBegin (addressOf b) (directionOf b) .nack, .diag (.noAck (addressOf b))] }
  | send (s : State) (b : Byte) (q : List Byte) (hq : s.txq = b :: q) :
    EngineStep s { s with txq := q, out := s.out ++ [.busSend b], sr := { s.sr with byteTrans := true } }
  | recv (s : State) (b : Byte) (answers : List Byte) (draws : Nat) (room : s.rxq.length ≠ 32) :
    EngineStep s { s with
      rxq := s.rxq ++ [b], recvAnswers := answers, draws := draws, out := s.out ++ [.busRecv b] }
  | finish (s : State) : EngineStep s (withDone s)
  | move (s : State) (i : Fin 16) : EngineStep s { s with cur := i }

/-- A chain of elementary effects. -/
abbrev EngineSteps : State → State → Prop := Relation.ReflTransGen EngineStep

/-- A reflexive and transitive relation that holds across each effect holds across a chain. -/
theorem EngineSteps.lift {R : State → State → Prop} (refl : ∀ s, R s s) (trans : ∀ s t u, R s t → R t u → R s u)
    (one : ∀ s t, EngineStep s t → R s t) {s t : State} (h : EngineSteps s t) : R s t := by
  induction h with
  | refl => exact refl _
  | tail _ hs ih => exact trans _ _ _ ih (one _ _ hs)

/-- A predicate kept by each effect is kept by a chain. -/
theorem EngineSteps.keeps {P : State → Prop} (one : ∀ s t, EngineStep s t → P s → P t) {s t : State}
    (h : EngineSteps s t) : P s → P t :=
  h.lift (R := fun s t => P s → P t) (fun _ => id) (fun _ _ _ f g => g ∘ f) one

/-! ### Slots across an effect -/

/-- A slot that is done stays the same slot, and no slot loses its written fields (R197, R203). -/
theorem EngineStep.slot {s t : State} (h : EngineStep s t) (i : Fin 16) :
    (t.slot i).byteNum = (s.slot i).byteNum ∧ (t.slot i).ackEn = (s.slot i).ackEn ∧
    (t.slot i).ackExp = (s.slot i).ackExp ∧ (t.slot i).opCode = (s.slot i).opCode ∧
    ((s.slot i).done = true → t.slot i = s.slot i) := by
  cases h with
  | beginOk b q answers draws v hq idle pending =>
    rw [slot_of_cmd_set (s := s) (i := s.cur) rfl i]
    split
    · next e => subst e; simp [pending]
    · simp
  | finish =>
    rw [slot_of_cmd_set (s := s) (i := s.cur) rfl i]
    split
    · next e =>
      subst e
      refine ⟨rfl, rfl, rfl, rfl, fun hd => ?_⟩
      cases hc : s.slot s.cur
      simp_all
    · simp
  | _ => exact ⟨rfl, rfl, rfl, rfl, fun _ => rfl⟩

/-- A done flag, once set, stays set in a pass (R203). -/
theorem EngineSteps.done {s t : State} (h : EngineSteps s t) (i : Fin 16) :
    (s.slot i).done = true → (t.slot i).done = true :=
  h.keeps (P := fun s => (s.slot i).done = true) fun s t hs hd => by rw [(hs.slot i).2.2.2.2 hd]; exact hd

/-! ### The commands as chains -/

theorem EngineSteps.single {s t : State} (h : EngineStep s t) : EngineSteps s t := Relation.ReflTransGen.single h

theorem raiseIrq_steps (e : Event) (h : engineRaises e = true) (s : State) : EngineSteps s (raiseIrq e s) := by
  rw [raiseIrq_eq]
  exact .single (.event s e h)

theorem markDone_steps (s : State) : EngineSteps s (markDone s) := .single (.finish s)

theorem sendLoop_steps (r : Nat) (s : State) : EngineSteps s (sendLoop r s) := by
  induction r generalizing s with
  | zero => exact .refl
  | succ r ih =>
    unfold sendLoop
    cases hq : s.txq with
    | nil => rw [txPop_nil hq]; exact raiseIrq_steps _ rfl s
    | cons b q => rw [txPop_cons hq]; exact .head (.send s b q hq) (ih _)

theorem dataPhase_steps (r : Nat) (s : State) : EngineSteps s (dataPhase r s) :=
  (sendLoop_steps r s).trans (raiseIrq_steps _ rfl _)

theorem addressNack_steps {s s2 : State} {b : Byte} {q : List Byte} {answers : List BeginResult} {draws : Nat}
    (hq : s.txq = b :: q)
    (h2 : s2 = { s with
      txq := q, beginAnswers := answers, draws := draws
      out := s.out ++ [.busBegin (addressOf b) (directionOf b) .nack] }) :
    EngineSteps s (addressNack (addressOf b) s2) := by
  subst h2
  refine (EngineSteps.single (.beginNack s b q answers draws hq)).trans ?_
  refine (raiseIrq_steps .ackErr rfl _).trans ?_
  simp only [addressNack, emitDiag_eq, setAckRec, emit, List.append_assoc, List.cons_append, List.nil_append]
  exact .refl

theorem addressOk_steps {s s2 : State} {b : Byte} {q : List Byte} {answers : List BeginResult} {draws : Nat}
    (en ex : Bool) (hq : s.txq = b :: q) (idle : s.sr.busBusy = false) (pending : (s.slot s.cur).done = false)
    (h2 : s2 = { s with
      txq := q, beginAnswers := answers, draws := draws
      out := s.out ++ [.busBegin (addressOf b) (directionOf b) .ok] }) :
    EngineSteps s (addressOk en ex s2) := by
  subst h2
  exact (EngineSteps.single (.beginOk s b q answers draws (en && ex) hq idle pending)).trans
    (raiseIrq_steps .transStart rfl _)

theorem writeBody_steps {n : BitVec 8} {en ex : Bool} {s t : State} (pending : (s.slot s.cur).done = false)
    (h : writeBody n en ex s = .next t) : EngineSteps s t := by
  unfold writeBody at h
  split at h
  · cases h; exact dataPhase_steps _ _
  · next idle =>
    cases hq : s.txq with
    | nil => rw [txPop_nil hq] at h; cases h; exact raiseIrq_steps _ rfl s
    | cons b q =>
      rw [txPop_cons hq] at h
      obtain ⟨r, answers, draws, hb⟩ := busBegin_cases (addressOf b) (directionOf b) { s with txq := q }
      cases r with
      | nack =>
        simp only [hb] at h
        cases h
        exact addressNack_steps hq rfl
      | ok =>
        simp only [hb] at h
        split at h
        · cases h
        · cases h
          exact (addressOk_steps en ex hq (by simpa using idle) pending rfl).trans (dataPhase_steps _ _)

theorem readBody_steps (s : State) : EngineSteps s (readBody s) := by
  unfold readBody
  split
  · exact raiseIrq_steps _ rfl s
  · next room =>
    obtain ⟨b, answers, draws, hb⟩ := busRecv_cases s
    simp only [hb]
    have one : EngineSteps s (rxPush b { s with
        recvAnswers := answers, draws := draws, out := s.out ++ [.busRecv b] }) :=
      .single (.recv s b answers draws room)
    split
    · exact one.trans (raiseIrq_steps _ rfl _)
    · exact one

/-! ### The cursor across a command -/

@[simp] theorem raiseIrq_cur (e : Event) (s : State) : (raiseIrq e s).cur = s.cur := by rw [raiseIrq_eq]; rfl

@[simp] theorem dataPhase_cur (r : Nat) (s : State) : (dataPhase r s).cur = s.cur := by
  rw [dataPhase_eq, afterSends]
  split <;> rfl

@[simp] theorem readBody_cur (s : State) : (readBody s).cur = s.cur := by
  unfold readBody
  obtain ⟨b, answers, draws, hb⟩ := busRecv_cases s
  simp only [hb]
  split
  · simp
  · split <;> simp

theorem writeBody_cur {n : BitVec 8} {en ex : Bool} {s t : State} (h : writeBody n en ex s = .next t) :
    t.cur = s.cur := by
  unfold writeBody at h
  split at h
  · cases h; simp
  · cases hq : s.txq with
    | nil => rw [txPop_nil hq] at h; cases h; simp
    | cons b q =>
      rw [txPop_cons hq] at h
      obtain ⟨r, answers, draws, hb⟩ := busBegin_cases (addressOf b) (directionOf b) { s with txq := q }
      cases r <;> simp only [hb] at h
      · split at h
        · cases h
        · cases h; simp [addressOk]
      · cases h; simp [addressNack]

/-! ### A visit and a pass -/

/-- What the command of a pending slot does when it answers a next state: a chain of effects that leaves the cursor
where it was and the slot done (R193). -/
theorem runCommand_steps {c : Slot} {s t : State} (pending : (s.slot s.cur).done = false)
    (h : runCommand c s = .next t) :
    EngineSteps s t ∧ t.cur = s.cur ∧ (t.slot s.cur).done = true := by
  have finish : ∀ u : State, EngineSteps s u → u.cur = s.cur →
      EngineSteps s (markDone u) ∧ (markDone u).cur = s.cur ∧ ((markDone u).slot s.cur).done = true := by
    intro u hu hc
    refine ⟨hu.trans (markDone_steps u), by simp [hc], ?_⟩
    rw [markDone_slot, if_pos hc]
  have ended : EngineSteps s (busEnd (setBusBusy false s)) := .single (.endTransfer s)
  unfold runCommand at h
  split at h
  · cases h; exact finish _ ended rfl
  · obtain ⟨u, hu, ht⟩ := andThen_eq_next.mp h
    cases ht
    exact finish u (writeBody_steps pending hu) (writeBody_cur hu)
  · cases h; exact finish _ (readBody_steps s) (readBody_cur s)
  · cases h; exact finish _ (ended.trans (raiseIrq_steps _ rfl _)) (by simp)
  · cases h; exact finish _ (raiseIrq_steps _ rfl _) (by simp)
  · cases h; exact finish _ .refl rfl
  · cases h; exact finish _ .refl rfl
  · cases h; exact finish _ .refl rfl

/-- What a visit does when it answers a next state. -/
theorem visitSlot_steps {i : Fin 16} {s t : State} (h : visitSlot i s = .next t) :
    EngineSteps s t ∧ t.cur = i ∧ (t.slot i).done = true := by
  unfold visitSlot at h
  split at h
  · next hd => cases h; exact ⟨.single (.move s i), rfl, hd⟩
  · next hd =>
    obtain ⟨hs, hc, hf⟩ := runCommand_steps (s := { s with cur := i }) (by simpa [State.slot] using hd) h
    exact ⟨.head (.move s i) hs, hc, hf⟩

/-- What visiting a list of slots does when it answers a next state. -/
theorem passFrom_steps {l : List (Fin 16)} {s t : State} (h : passFrom l s = .next t) :
    EngineSteps s t ∧ ∀ i ∈ l, (t.slot i).done = true := by
  induction l generalizing s with
  | nil => cases h; exact ⟨.refl, by simp⟩
  | cons i l ih =>
    obtain ⟨u, hu, ht⟩ := andThen_eq_next.mp h
    obtain ⟨s1, -, d1⟩ := visitSlot_steps hu
    obtain ⟨s2, d2⟩ := ih ht
    refine ⟨s1.trans s2, fun j hj => ?_⟩
    rcases List.mem_cons.mp hj with rfl | hj
    · exact s2.done j d1
    · exact d2 j hj

theorem mem_slotOrder (i : Fin 16) : i ∈ slotOrder := by revert i; decide

/-- What a pass does when it answers a next state: a chain of effects, after which every slot is done and the cursor
rests. -/
theorem enginePass_steps {s t : State} (h : enginePass s = .next t) :
    EngineSteps s t ∧ AllDone t ∧ t.cur = 0 := by
  obtain ⟨u, hu, ht⟩ := andThen_eq_next.mp h
  cases ht
  obtain ⟨hs, hd⟩ := passFrom_steps hu
  exact ⟨hs.tail (.move u 0), fun i => hd i (mem_slotOrder i), rfl⟩

/-! ### When a pass completes -/

/-- WRITE stops only on a zero count (R198). -/
theorem writeBody_next {n : BitVec 8} (hn : n ≠ 0) (en ex : Bool) (s : State) :
    ∃ t, writeBody n en ex s = .next t := by
  unfold writeBody
  split
  · exact ⟨_, rfl⟩
  · cases hq : s.txq with
    | nil => rw [txPop_nil hq]; exact ⟨_, rfl⟩
    | cons b q =>
      rw [txPop_cons hq]
      obtain ⟨r, answers, draws, hb⟩ := busBegin_cases (addressOf b) (directionOf b) { s with txq := q }
      cases r with
      | nack => simp only [hb]; exact ⟨_, rfl⟩
      | ok => simp only [hb]; exact ⟨_, rfl⟩

/-- Whatever a WRITE answers, it is a next state or the one refusal. -/
theorem writeBody_outcome (n : BitVec 8) (en ex : Bool) (s : State) :
    (∃ t, writeBody n en ex s = .next t) ∨ (n = 0 ∧ writeBody n en ex s = .refused .writeCountUnderflow) := by
  by_cases hn : n = 0
  · unfold writeBody
    split
    · exact .inl ⟨_, rfl⟩
    · cases hq : s.txq with
      | nil => rw [txPop_nil hq]; exact .inl ⟨_, rfl⟩
      | cons b q =>
        rw [txPop_cons hq]
        obtain ⟨r, answers, draws, hb⟩ := busBegin_cases (addressOf b) (directionOf b) { s with txq := q }
        cases r <;> simp [hb, hn]
  · exact .inl (writeBody_next hn en ex s)

/-- Opcode 1 is WRITE and no other is (R94). -/
theorem opcodeOf_eq_write {op : BitVec 3} : opcodeOf op = .write ↔ op = 1 := by revert op; decide

/-- A command stops only if it is a WRITE with a zero count. -/
theorem runCommand_outcome (c : Slot) (s : State) :
    (∃ t, runCommand c s = .next t) ∨
    (c.opCode = 1 ∧ c.byteNum = 0 ∧ runCommand c s = .refused .writeCountUnderflow) := by
  unfold runCommand
  split
  case h_2 hop =>
    rcases writeBody_outcome c.byteNum c.ackEn c.ackExp s with ⟨t, ht⟩ | ⟨h0, hr⟩
    · exact .inl ⟨markDone t, by rw [execCmdWrite, ht]; rfl⟩
    · exact .inr ⟨opcodeOf_eq_write.mp hop, h0, by rw [execCmdWrite, hr]; rfl⟩
  all_goals exact .inl ⟨_, rfl⟩

end Sys2Proof.Machine
end

