-- ==== Sys2Proof/Laws/Step.lean ====
section
/-! SUPPORT. What a step and a `CTR` write can do, said once. -/

namespace Sys2Proof.Machine

/-- Whatever answers a next state in one step did one of four things: nothing (no event pending), the reset operation, or
the instruction an access decodes to. -/
theorem step_next_cases {s t : State} (h : step s = .next t) :
    s.fault = none ∧
    ((s.host = [] ∧ t = s) ∨
     (∃ rest, s.host = .reset :: rest ∧ t = resetBlock { s with host := rest }) ∨
     (∃ a rest i, s.host = .access a :: rest ∧ decode s.params (.mmio a) = .ok i ∧
        exec i { s with host := rest } = .next t)) := by
  unfold step serveHost at h
  cases hf : s.fault with
  | some f => simp [hf] at h
  | none =>
    refine ⟨rfl, ?_⟩
    simp only [hf] at h
    cases hh : s.host with
    | nil => simp only [hh] at h; cases h; exact .inl ⟨rfl, rfl⟩
    | cons e rest =>
      cases e with
      | reset => simp only [hh] at h; cases h; exact .inr (.inl ⟨rest, rfl, rfl⟩)
      | access a =>
        simp only [hh, serveAccess] at h
        split at h
        · next i hd => exact .inr (.inr ⟨a, rest, i, rfl, hd, h⟩)
        · cases h

/-- `Ctr.ofWord` with the trigger cleared is what a completed write leaves. -/
theorem ctr_ofWord_cleared (L : CtrLayout) (v : Word) :
    { Ctr.ofWord L v with transStart := false } = controlFields L v := rfl

/-- The fields a `FIFO_CONF` write stores have their widths. -/
theorem fieldsFit_fifoConf {s : State} (v : Word) (h : FieldsFit s) :
    FieldsFit { s with fifoConf := FifoConf.ofWord s.params.layout.fifoConf v } :=
  ⟨h.1, by simp [FifoConf.ofWord, BitField.get_fits]⟩

/-- The fields a Status write stores have their widths. -/
theorem fieldsFit_maskedStatus {s : State} (v : Word) (h : FieldsFit s) :
    FieldsFit { s with sr := maskedStatus s.params v s.sr } :=
  ⟨by simp [maskedStatus, Sr.ofWord, BitField.get_fits], h.2⟩

/-- The fields the reset operation leaves have their widths. -/
theorem fieldsFit_resetBlock (s : State) : FieldsFit (resetBlock s) := by
  rw [resetBlock_eq]
  exact ⟨by simp [Sr.atReset], by simp [FifoConf.ofWord, BitField.get_fits]⟩

/-- What a `CTR` write that answers a next state did (R131). -/
theorem execWrCtr_next_cases {v : Word} {s t : State} (h : exec (.wrCtr v) s = .next t) :
    (v.getLsbD s.params.layout.ctr.msMode.lo ≠ s.params.masterMode ∧
      t = takeFault .slaveModeSelected .slaveModeRequest s) ∨
    (v.getLsbD s.params.layout.ctr.msMode.lo = s.params.masterMode ∧
      v.getLsbD s.params.layout.ctr.transStart.lo = false ∧
      t = { s with ctr := controlFields s.params.layout.ctr v }) ∨
    (v.getLsbD s.params.layout.ctr.msMode.lo = s.params.masterMode ∧
      v.getLsbD s.params.layout.ctr.transStart.lo = true ∧
      ∃ u, enginePass { s with ctr := Ctr.ofWord s.params.layout.ctr v } = .next u ∧ t = clearTrigger u) := by
  simp only [exec, execWrCtr, selectsSlave, BitField.bit, bne_iff_ne] at h
  split at h
  · next hm => cases h; exact .inl ⟨hm, rfl⟩
  · next hm =>
    have hm' : v.getLsbD s.params.layout.ctr.msMode.lo = s.params.masterMode := by simpa using hm
    cases ht : v.getLsbD s.params.layout.ctr.transStart.lo with
    | true =>
      simp only [ht, if_true] at h
      obtain ⟨u, hu, hc⟩ := andThen_eq_next.mp h
      cases hc
      exact .inr (.inr ⟨hm', rfl, u, hu, rfl⟩)
    | false =>
      simp only [ht, Bool.false_eq_true, if_false] at h
      cases h
      exact .inr (.inl ⟨hm', rfl, rfl⟩)

end Sys2Proof.Machine
end

