-- ==== Sys2Proof/Laws/Exec.lean ====
section
/-! SUPPORT. What `exec` can do, said once: the sixteen slot operations as one, a command word's execution, and the
shapes of effect an instruction has when it answers a next state. -/

namespace Sys2Proof.Machine

/-- Executing a command is the engine's dispatch on its fields. -/
theorem exec_commandOf (c : Slot) (s : State) :
    exec (commandOf (opcodeOf c.opCode) c.byteNum c.ackEn c.ackExp c.ackVal) s = runCommand c s := by
  rw [runCommand]
  cases opcodeOf c.opCode <;> rfl

/-- Executing the command of a word is the engine's dispatch on the word's fields. -/
theorem exec_decodeCommand (L : CmdLayout) (w : Word) (s : State) :
    exec (decodeCommand L w) s = runCommand (Slot.ofWrite L w) s := exec_commandOf (Slot.ofWrite L w) s

/-- The sixteen slot writes are one operation (R147). -/
theorem exec_wrCmd (i : Fin 16) (v : Word) (s : State) : exec (wrCmd i v) s = .next (writeSlot i v s) := by
  fin_cases i <;> rfl

/-- The sixteen slot reads are one operation (R148). -/
theorem exec_rdCmd (i : Fin 16) (s : State) : exec (rdCmd i) s = .next (readSlot i s) := by
  fin_cases i <;> rfl

/-! ### A command in any state -/

/-- The state with the slot under the cursor pending: what a command runs in. -/
def pendingCur (s : State) : State := { s with cmd := s.cmd.set s.cur { s.slot s.cur with done := false } }

theorem slot_set_self (s : State) (c : Slot) : ({ s with cmd := s.cmd.set s.cur c } : State).slot s.cur = c := by
  rw [slot_of_cmd_set (s := s) (i := s.cur) (c := c) rfl]; simp

theorem pendingCur_markDone (s : State) : markDone (pendingCur s) = markDone s := by
  have := slot_set_self s { s.slot s.cur with done := false }
  simp only [markDone, setSlot, pendingCur, this, Vector.set_set]

theorem pendingCur_setAckVal (a b : Bool) (s : State) :
    setAckVal a b (pendingCur s) = pendingCur (setAckVal a b s) := by
  have h1 := slot_set_self s { s.slot s.cur with done := false }
  have h2 := slot_set_self s { s.slot s.cur with ackVal := a && b }
  simp only [setAckVal, setSlot, pendingCur, h1, h2, Vector.set_set]

theorem pendingCur_afterSends (r : Nat) (s : State) : afterSends r (pendingCur s) = pendingCur (afterSends r s) := by
  simp only [afterSends, pendingCur]
  by_cases h : s.txq.length < r
  · simp only [h, if_true]; rfl
  · simp only [h, if_false]; rfl

theorem pendingCur_afterEvent (k : Nat) (s : State) : afterEvent k (pendingCur s) = pendingCur (afterEvent k s) := rfl

theorem pendingCur_busBegin (a : BitVec 7) (d : Direction) (s : State) : busBegin a d (pendingCur s) =
    ((busBegin a d s).1, pendingCur (busBegin a d s).2) := by
  unfold busBegin; simp only [pendingCur]; cases s.beginAnswers <;> rfl

theorem pendingCur_busRecv (s : State) : busRecv (pendingCur s) = ((busRecv s).1, pendingCur (busRecv s).2) := by
  unfold busRecv; simp only [pendingCur]; cases s.recvAnswers <;> rfl

/-- A command ends by marking the slot done, so whether it was done before makes no difference. -/
theorem runCommand_pendingCur (c : Slot) (s : State) : runCommand c s = runCommand c (pendingCur s) := by
  unfold runCommand
  split
  · exact congrArg Host.Outcome.next (pendingCur_markDone _).symm
  · generalize c.byteNum = n
    generalize c.ackEn = en
    generalize c.ackExp = ex
    have : writeBody n en ex (pendingCur s) = andThen (writeBody n en ex s) (fun t => .next (pendingCur t)) := by
      unfold writeBody
      have hb : (pendingCur s).sr = s.sr := rfl
      rw [hb]
      split
      · simp only [dataPhase_eq, pendingCur_afterSends, pendingCur_afterEvent]; rfl
      · cases hq : s.txq with
        | nil => rw [txPop_nil hq, txPop_nil (s := pendingCur s) hq]; simp only [raiseIrq_eq]; rfl
        | cons b q =>
          rw [txPop_cons hq, txPop_cons (s := pendingCur s) hq]
          have := pendingCur_busBegin (addressOf b) (directionOf b) { s with txq := q }
          simp only
          rw [show ({ pendingCur s with txq := q } : State) = pendingCur { s with txq := q } from rfl, this]
          rcases busBegin (addressOf b) (directionOf b) { s with txq := q } with ⟨r, u⟩
          cases r
          · simp only
            split
            · rfl
            · simp only [dataPhase_eq]
              rw [show addressOk en ex (pendingCur u) = pendingCur (addressOk en ex u) from by
                    simp only [addressOk, raiseIrq_eq]
                    rw [show setByteTrans (setAckRec true (setBusBusy true (pendingCur u))) =
                        pendingCur (setByteTrans (setAckRec true (setBusBusy true u))) from rfl,
                      pendingCur_setAckVal, pendingCur_afterEvent]
                    rfl, pendingCur_afterSends, pendingCur_afterEvent]
              rfl
          · simp only [addressNack, raiseIrq_eq]; rfl
    rw [execCmdWrite, execCmdWrite, this]
    cases writeBody n en ex s with
    | next u => exact congrArg Host.Outcome.next (pendingCur_markDone _).symm
    | fault e => rfl
    | refused e => rfl
  · have : readBody (pendingCur s) = pendingCur (readBody s) := by
      unfold readBody
      rw [pendingCur_busRecv]
      have hb : (pendingCur s).rxq = s.rxq := rfl
      rw [hb]
      split
      · simp only [raiseIrq_eq]; rfl
      · simp only [raiseIrq_eq]
        rcases busRecv s with ⟨r, u⟩
        have hx : (rxPush r (pendingCur u)) = pendingCur (rxPush r u) := rfl
        simp only [hx]
        have hy : (pendingCur (rxPush r u)).rxq = (rxPush r u).rxq := rfl
        rw [hy]
        by_cases h : (rxPush r u).rxq.length = Config.fifoCap
        · simp only [h, if_true]; rfl
        · simp only [h, if_false]
    rw [execCmdRead, execCmdRead, this, pendingCur_markDone]
  · simp only [execCmdStop, raiseIrq_eq]; exact congrArg Host.Outcome.next (pendingCur_markDone _).symm
  · simp only [execCmdEnd, raiseIrq_eq]; exact congrArg Host.Outcome.next (pendingCur_markDone _).symm
  all_goals exact congrArg Host.Outcome.next (pendingCur_markDone _).symm

/-- `runCommand_steps` in any state. -/
theorem runCommand_steps_any {c : Slot} {s t : State} (h : runCommand c s = .next t) :
    EngineSteps (pendingCur s) t ∧ t.cur = s.cur ∧ (t.slot s.cur).done = true := by
  rw [runCommand_pendingCur] at h
  exact runCommand_steps (by simp [pendingCur, slot_set_self s]) h

/-! ### Every instruction -/

/-- What an instruction that answers a next state did, with the few shapes there are. `other` are the host operations
that touch `FIFO_CONF`, the FIFOs and the outputs alone. -/
inductive ExecEffect : Instr → State → State → Prop
  | rdIntRaw (s : State) :
    ExecEffect .rdIntRaw s { s with intRaw := 0, out := s.out ++ [.reply (wordOfEvents s.intRaw)] }
  | wrIntClr (v : Word) (s : State) :
    ExecEffect (.wrIntClr v) s { s with
      intSt := 0, irq := false, out := s.out ++ (if s.irq then [.irq false] else []) }
  | wrIntEna (v : Word) (s : State) : ExecEffect (.wrIntEna v) s { s with intEna := eventBits v }
  | wrSr (v : Word) (s : State) : ExecEffect (.wrSr v) s { s with sr := maskedStatus s.params v s.sr }
  | wrSlot (i : Fin 16) (v : Word) (s : State) : ExecEffect (wrCmd i v) s (writeSlot i v s)
  | other (i : Instr) (s : State) (f : FifoConf) (tq rq : List Byte) (n : Nat) (new : List Output)
      (fits : FifosBounded s → tq.length ≤ 32 ∧ rq.length ≤ 32)
      (fields : FieldsFit s → FieldsFit { s with fifoConf := f }) (quiet : new.filter Output.isBusCall = [])
      (hi : i.isHostAccess = true) :
    ExecEffect i s { s with fifoConf := f, txq := tq, rxq := rq, draws := n, out := s.out ++ new }
  | slave (v : Word) (s : State) : ExecEffect (.wrCtr v) s (takeFault .slaveModeSelected .slaveModeRequest s)
  | ctr (v : Word) (s : State) : ExecEffect (.wrCtr v) s { s with ctr := controlFields s.params.layout.ctr v }
  | pass (v : Word) (s u : State) (trigger : v.getLsbD s.params.layout.ctr.transStart.lo = true)
      (steps : EngineSteps { s with ctr := Ctr.ofWord s.params.layout.ctr v } u) (rests : u.cur = 0) (all : AllDone u) :
    ExecEffect (.wrCtr v) s (clearTrigger u)
  | cmd (i : Instr) (s t : State) (hi : i.isHostAccess = false) (steps : EngineSteps (pendingCur s) t)
      (cursor : t.cur = s.cur) (done : (t.slot s.cur).done = true) : ExecEffect i s t

/-- A host operation that puts out and does nothing else. -/
theorem execEffect_out (i : Instr) (s : State) (new : List Output) (quiet : new.filter Output.isBusCall = [])
    (hi : i.isHostAccess = true) : ExecEffect i s { s with out := s.out ++ new } :=
  .other i s s.fifoConf s.txq s.rxq s.draws new id id quiet hi

/-- A host operation that does nothing. -/
theorem execEffect_none (i : Instr) (s : State) (hi : i.isHostAccess = true) : ExecEffect i s s := by
  simpa using execEffect_out i s [] rfl hi

/-- A host operation that leaves the outputs alone. -/
theorem execEffect_queues (i : Instr) (s : State) (f : FifoConf) (tq rq : List Byte)
    (fits : FifosBounded s → tq.length ≤ 32 ∧ rq.length ≤ 32)
    (fields : FieldsFit s → FieldsFit { s with fifoConf := f }) (hi : i.isHostAccess = true) :
    ExecEffect i s { s with fifoConf := f, txq := tq, rxq := rq } := by
  simpa using ExecEffect.other i s f tq rq s.draws [] fits fields rfl hi

/-- Whatever answers a next state has one of the effects. -/
theorem exec_next_cases {i : Instr} {s t : State} (h : exec i s = .next t) : ExecEffect i s t := by
  have hcmd : ∀ o n en ex av, i = commandOf o n en ex av → ExecEffect i s t := by
    rintro o n en ex av rfl
    obtain ⟨op, rfl⟩ : ∃ op : BitVec 3, o = opcodeOf op := by
      cases o
      · exact ⟨0, rfl⟩
      · exact ⟨1, rfl⟩
      · exact ⟨2, rfl⟩
      · exact ⟨3, rfl⟩
      · exact ⟨4, rfl⟩
      · exact ⟨5, rfl⟩
      · exact ⟨6, rfl⟩
      · exact ⟨7, rfl⟩
    rw [exec_commandOf ⟨n, en, ex, av, op, false⟩] at h
    obtain ⟨h1, h2, h3⟩ := runCommand_steps_any h
    exact .cmd _ _ _ (by cases opcodeOf op <;> rfl) h1 h2 h3
  cases i
  case wrCtr v =>
    rcases execWrCtr_next_cases h with ⟨-, h1⟩ | ⟨-, -, h1⟩ | ⟨-, ht, u, hu, h1⟩
    · rw [h1]; exact .slave v s
    · rw [h1]; exact .ctr v s
    · rw [h1]
      obtain ⟨hs, hd, hc⟩ := enginePass_steps hu
      exact .pass v s u ht hs hc hd
  case rdIntRaw => cases h; exact .rdIntRaw s
  case wrIntClr v => simp only [exec, execWrIntClr, clearIrq_eq] at h; cases h; exact .wrIntClr v s
  case wrIntEna v => cases h; exact .wrIntEna v s
  case wrSr v => cases h; exact .wrSr v s
  case wrFifoConf v =>
    simp only [exec, execWrFifoConf] at h
    generalize s.params.layout.fifoConf.rxFifoRst.bit v = rx at h
    generalize s.params.layout.fifoConf.txFifoRst.bit v = tx at h
    cases rx <;> cases tx <;> cases h
    · exact execEffect_queues _ s _ s.txq s.rxq id (fieldsFit_fifoConf v) rfl
    · exact execEffect_queues _ s _ [] s.rxq (fun hs => ⟨by simp, hs.2⟩) (fieldsFit_fifoConf v) rfl
    · exact execEffect_queues _ s _ s.txq [] (fun hs => ⟨hs.1, by simp⟩) (fieldsFit_fifoConf v) rfl
    · exact execEffect_queues _ s _ [] [] (fun _ => ⟨by simp, by simp⟩) (fieldsFit_fifoConf v) rfl
  case rdData =>
    simp only [exec, execRdData, rxPopHost] at h
    cases hq : s.rxq with
    | nil =>
      simp only [hq] at h
      cases h
      have := ExecEffect.other .rdData s s.fifoConf s.txq s.rxq (s.draws + 1)
        [.diag .rxFifoUnderflow, .reply (Config.rxEmptyRead s.draws)] id id rfl rfl
      rw [hq] at this
      simpa [emit, hq] using this
    | cons b q =>
      simp only [hq] at h
      cases h
      refine .other _ s s.fifoConf s.txq q s.draws [_] (fun hs => ⟨hs.1, ?_⟩) id rfl rfl
      have := hs.2
      simp only [hq, List.length_cons] at this
      omega
  case wrData v =>
    simp only [exec, execWrData, txPushHost, Config.fifoCap] at h
    split at h
    · cases h; exact execEffect_out _ s [_] rfl rfl
    · next hl =>
      cases h
      refine execEffect_queues _ s s.fifoConf (s.txq ++ [dataByte v]) s.rxq (fun hs => ⟨?_, hs.2⟩) id rfl
      have := hs.1
      simp only [List.length_append, List.length_singleton]
      omega
  case wrIntRaw v => cases h; exact execEffect_none _ s rfl
  case wrIntSt v => cases h; exact execEffect_none _ s rfl
  case rdUnknown off =>
    cases h
    simpa [emit] using execEffect_out (.rdUnknown off) s [.diag (.unknownOffsetRead off), .reply 0] rfl rfl
  case wrUnknown off v => cases h; exact execEffect_out _ s [_] rfl rfl
  case cmdRestart n en ex av => exact hcmd .restart n en ex av rfl
  case cmdWrite n en ex av => exact hcmd .write n en ex av rfl
  case cmdRead n en ex av => exact hcmd .read n en ex av rfl
  case cmdStop n en ex av => exact hcmd .stop n en ex av rfl
  case cmdEnd n en ex av => exact hcmd .endOp n en ex av rfl
  case cmdUnknown5 n en ex av => exact hcmd .unknown5 n en ex av rfl
  case cmdUnknown6 n en ex av => exact hcmd .unknown6 n en ex av rfl
  case cmdUnknown7 n en ex av => exact hcmd .unknown7 n en ex av rfl
  case wrCmd0 v => cases h; exact .wrSlot 0 v s
  case wrCmd1 v => cases h; exact .wrSlot 1 v s
  case wrCmd2 v => cases h; exact .wrSlot 2 v s
  case wrCmd3 v => cases h; exact .wrSlot 3 v s
  case wrCmd4 v => cases h; exact .wrSlot 4 v s
  case wrCmd5 v => cases h; exact .wrSlot 5 v s
  case wrCmd6 v => cases h; exact .wrSlot 6 v s
  case wrCmd7 v => cases h; exact .wrSlot 7 v s
  case wrCmd8 v => cases h; exact .wrSlot 8 v s
  case wrCmd9 v => cases h; exact .wrSlot 9 v s
  case wrCmd10 v => cases h; exact .wrSlot 10 v s
  case wrCmd11 v => cases h; exact .wrSlot 11 v s
  case wrCmd12 v => cases h; exact .wrSlot 12 v s
  case wrCmd13 v => cases h; exact .wrSlot 13 v s
  case wrCmd14 v => cases h; exact .wrSlot 14 v s
  case wrCmd15 v => cases h; exact .wrSlot 15 v s
  all_goals (cases h; exact execEffect_out _ s [_] rfl rfl)


end Sys2Proof.Machine
end

