-- ==== Sys2Proof/Laws/PerInstr.lean ====
section
/-! SUPPORT. The family `Encoding`: for each instruction, decoding its encoding gives it back; one lemma per constructor. -/

namespace Sys2Proof.Laws.Encoding

/-- The round trip of one instruction (R91, R93), for every admissible window and `LAYOUT`. -/
def Statement (i : Instr) : Prop :=
  ∀ p : Params, p.wf = true → i.wf p.windowBytes = true → decode p (encode p.layout.cmd i) = .ok i

theorem rdCtr : Statement .rdCtr := fun _ h _ =>
  decode_readAt (off := 0x04) rfl (by have := Params.wf_window h; omega)

theorem wrCtr (v : Word) : Statement (.wrCtr v) :=
  fun _ h _ => decode_writeAt (off := 0x04) v rfl (by have := Params.wf_window h; omega)

theorem rdSr : Statement .rdSr := fun _ h _ =>
  decode_readAt (off := 0x08) rfl (by have := Params.wf_window h; omega)

theorem wrSr (v : Word) : Statement (.wrSr v) :=
  fun _ h _ => decode_writeAt (off := 0x08) v rfl (by have := Params.wf_window h; omega)

theorem rdFifoConf : Statement .rdFifoConf := fun _ h _ =>
  decode_readAt (off := 0x18) rfl (by have := Params.wf_window h; omega)

theorem wrFifoConf (v : Word) : Statement (.wrFifoConf v) :=
  fun _ h _ => decode_writeAt (off := 0x18) v rfl (by have := Params.wf_window h; omega)

theorem rdData : Statement .rdData := fun _ h _ =>
  decode_readAt (off := 0x1c) rfl (by have := Params.wf_window h; omega)

theorem wrData (v : Word) : Statement (.wrData v) :=
  fun _ h _ => decode_writeAt (off := 0x1c) v rfl (by have := Params.wf_window h; omega)

theorem rdIntRaw : Statement .rdIntRaw := fun _ h _ =>
  decode_readAt (off := 0x20) rfl (by have := Params.wf_window h; omega)

theorem wrIntRaw (v : Word) : Statement (.wrIntRaw v) :=
  fun _ h _ => decode_writeAt (off := 0x20) v rfl (by have := Params.wf_window h; omega)

theorem rdIntClr : Statement .rdIntClr := fun _ h _ =>
  decode_readAt (off := 0x24) rfl (by have := Params.wf_window h; omega)

theorem wrIntClr (v : Word) : Statement (.wrIntClr v) :=
  fun _ h _ => decode_writeAt (off := 0x24) v rfl (by have := Params.wf_window h; omega)

theorem rdIntEna : Statement .rdIntEna := fun _ h _ =>
  decode_readAt (off := 0x28) rfl (by have := Params.wf_window h; omega)

theorem wrIntEna (v : Word) : Statement (.wrIntEna v) :=
  fun _ h _ => decode_writeAt (off := 0x28) v rfl (by have := Params.wf_window h; omega)

theorem rdIntSt : Statement .rdIntSt := fun _ h _ =>
  decode_readAt (off := 0x2c) rfl (by have := Params.wf_window h; omega)

theorem wrIntSt (v : Word) : Statement (.wrIntSt v) :=
  fun _ h _ => decode_writeAt (off := 0x2c) v rfl (by have := Params.wf_window h; omega)

theorem rdCmd0 : Statement .rdCmd0 := fun _ h _ =>
  decode_readAt (off := 0x58) rfl (by have := Params.wf_window h; omega)

theorem wrCmd0 (v : Word) : Statement (.wrCmd0 v) :=
  fun _ h _ => decode_writeAt (off := 0x58) v rfl (by have := Params.wf_window h; omega)

theorem rdCmd1 : Statement .rdCmd1 := fun _ h _ =>
  decode_readAt (off := 0x5c) rfl (by have := Params.wf_window h; omega)

theorem wrCmd1 (v : Word) : Statement (.wrCmd1 v) :=
  fun _ h _ => decode_writeAt (off := 0x5c) v rfl (by have := Params.wf_window h; omega)

theorem rdCmd2 : Statement .rdCmd2 := fun _ h _ =>
  decode_readAt (off := 0x60) rfl (by have := Params.wf_window h; omega)

theorem wrCmd2 (v : Word) : Statement (.wrCmd2 v) :=
  fun _ h _ => decode_writeAt (off := 0x60) v rfl (by have := Params.wf_window h; omega)

theorem rdCmd3 : Statement .rdCmd3 := fun _ h _ =>
  decode_readAt (off := 0x64) rfl (by have := Params.wf_window h; omega)

theorem wrCmd3 (v : Word) : Statement (.wrCmd3 v) :=
  fun _ h _ => decode_writeAt (off := 0x64) v rfl (by have := Params.wf_window h; omega)

theorem rdCmd4 : Statement .rdCmd4 := fun _ h _ =>
  decode_readAt (off := 0x68) rfl (by have := Params.wf_window h; omega)

theorem wrCmd4 (v : Word) : Statement (.wrCmd4 v) :=
  fun _ h _ => decode_writeAt (off := 0x68) v rfl (by have := Params.wf_window h; omega)

theorem rdCmd5 : Statement .rdCmd5 := fun _ h _ =>
  decode_readAt (off := 0x6c) rfl (by have := Params.wf_window h; omega)

theorem wrCmd5 (v : Word) : Statement (.wrCmd5 v) :=
  fun _ h _ => decode_writeAt (off := 0x6c) v rfl (by have := Params.wf_window h; omega)

theorem rdCmd6 : Statement .rdCmd6 := fun _ h _ =>
  decode_readAt (off := 0x70) rfl (by have := Params.wf_window h; omega)

theorem wrCmd6 (v : Word) : Statement (.wrCmd6 v) :=
  fun _ h _ => decode_writeAt (off := 0x70) v rfl (by have := Params.wf_window h; omega)

theorem rdCmd7 : Statement .rdCmd7 := fun _ h _ =>
  decode_readAt (off := 0x74) rfl (by have := Params.wf_window h; omega)

theorem wrCmd7 (v : Word) : Statement (.wrCmd7 v) :=
  fun _ h _ => decode_writeAt (off := 0x74) v rfl (by have := Params.wf_window h; omega)

theorem rdCmd8 : Statement .rdCmd8 := fun _ h _ =>
  decode_readAt (off := 0x78) rfl (by have := Params.wf_window h; omega)

theorem wrCmd8 (v : Word) : Statement (.wrCmd8 v) :=
  fun _ h _ => decode_writeAt (off := 0x78) v rfl (by have := Params.wf_window h; omega)

theorem rdCmd9 : Statement .rdCmd9 := fun _ h _ =>
  decode_readAt (off := 0x7c) rfl (by have := Params.wf_window h; omega)

theorem wrCmd9 (v : Word) : Statement (.wrCmd9 v) :=
  fun _ h _ => decode_writeAt (off := 0x7c) v rfl (by have := Params.wf_window h; omega)

theorem rdCmd10 : Statement .rdCmd10 := fun _ h _ =>
  decode_readAt (off := 0x80) rfl (by have := Params.wf_window h; omega)

theorem wrCmd10 (v : Word) : Statement (.wrCmd10 v) :=
  fun _ h _ => decode_writeAt (off := 0x80) v rfl (by have := Params.wf_window h; omega)

theorem rdCmd11 : Statement .rdCmd11 := fun _ h _ =>
  decode_readAt (off := 0x84) rfl (by have := Params.wf_window h; omega)

theorem wrCmd11 (v : Word) : Statement (.wrCmd11 v) :=
  fun _ h _ => decode_writeAt (off := 0x84) v rfl (by have := Params.wf_window h; omega)

theorem rdCmd12 : Statement .rdCmd12 := fun _ h _ =>
  decode_readAt (off := 0x88) rfl (by have := Params.wf_window h; omega)

theorem wrCmd12 (v : Word) : Statement (.wrCmd12 v) :=
  fun _ h _ => decode_writeAt (off := 0x88) v rfl (by have := Params.wf_window h; omega)

theorem rdCmd13 : Statement .rdCmd13 := fun _ h _ =>
  decode_readAt (off := 0x8c) rfl (by have := Params.wf_window h; omega)

theorem wrCmd13 (v : Word) : Statement (.wrCmd13 v) :=
  fun _ h _ => decode_writeAt (off := 0x8c) v rfl (by have := Params.wf_window h; omega)

theorem rdCmd14 : Statement .rdCmd14 := fun _ h _ =>
  decode_readAt (off := 0x90) rfl (by have := Params.wf_window h; omega)

theorem wrCmd14 (v : Word) : Statement (.wrCmd14 v) :=
  fun _ h _ => decode_writeAt (off := 0x90) v rfl (by have := Params.wf_window h; omega)

theorem rdCmd15 : Statement .rdCmd15 := fun _ h _ =>
  decode_readAt (off := 0x94) rfl (by have := Params.wf_window h; omega)

theorem wrCmd15 (v : Word) : Statement (.wrCmd15 v) :=
  fun _ h _ => decode_writeAt (off := 0x94) v rfl (by have := Params.wf_window h; omega)

/-- What an unknown offset's well-formedness says. -/
theorem unknownOffset_iff {window off : Nat} :
    isUnknownOffset window off = true ↔ off % 4 = 0 ∧ off < window ∧ isMapped off = false := by
  simp [isUnknownOffset, and_assoc]

theorem rdUnknown (off : Nat) : Statement (.rdUnknown off) := by
  intro p _ hwf
  obtain ⟨h4, hw, hm⟩ := unknownOffset_iff.mp hwf
  rw [show encode p.layout.cmd (.rdUnknown off) = readAt off from rfl, decode_readAt h4 hw, readInstr, rowAt_of_unmapped hm]

theorem wrUnknown (off : Nat) (v : Word) : Statement (.wrUnknown off v) := by
  intro p _ hwf
  obtain ⟨h4, hw, hm⟩ := unknownOffset_iff.mp hwf
  rw [show encode p.layout.cmd (.wrUnknown off v) = writeAt off v from rfl, decode_writeAt v h4 hw, writeInstr, rowAt_of_unmapped hm]

/-- The round trip of a command: its word decodes to the command of its opcode. -/
theorem command {i : Instr} (op : BitVec 3) (n : BitVec 8) (en ex av : Bool)
    (he : ∀ L, encode L i = .cmd (commandWord L op n en ex av)) (hi : commandOf (opcodeOf op) n en ex av = i) :
    Statement i := by
  intro p h _
  rw [he, decode, decodeCommand_commandWord (Params.wf_layout h), hi]

theorem cmdRestart (n : BitVec 8) (en ex av : Bool) : Statement (.cmdRestart n en ex av) :=
  command 0 n en ex av (fun _ => rfl) rfl

theorem cmdWrite (n : BitVec 8) (en ex av : Bool) : Statement (.cmdWrite n en ex av) :=
  command 1 n en ex av (fun _ => rfl) rfl

theorem cmdRead (n : BitVec 8) (en ex av : Bool) : Statement (.cmdRead n en ex av) :=
  command 2 n en ex av (fun _ => rfl) rfl

theorem cmdStop (n : BitVec 8) (en ex av : Bool) : Statement (.cmdStop n en ex av) :=
  command 3 n en ex av (fun _ => rfl) rfl

theorem cmdEnd (n : BitVec 8) (en ex av : Bool) : Statement (.cmdEnd n en ex av) :=
  command 4 n en ex av (fun _ => rfl) rfl

theorem cmdUnknown5 (n : BitVec 8) (en ex av : Bool) : Statement (.cmdUnknown5 n en ex av) :=
  command 5 n en ex av (fun _ => rfl) rfl

theorem cmdUnknown6 (n : BitVec 8) (en ex av : Bool) : Statement (.cmdUnknown6 n en ex av) :=
  command 6 n en ex av (fun _ => rfl) rfl

theorem cmdUnknown7 (n : BitVec 8) (en ex av : Bool) : Statement (.cmdUnknown7 n en ex av) :=
  command 7 n en ex av (fun _ => rfl) rfl

end Sys2Proof.Laws.Encoding
end

