-- ==== Sys2Proof/Laws/Registers.lean ====
section
/-! SUPPORT. What packing a register and taking it apart do under an admissible `LAYOUT`: each word is one packed list of
fields; a packed register taken apart is the register, a word taken apart and packed keeps the bits of the fields. -/

namespace Sys2Proof.Machine

/-- A flag of a list of flags, taken out and placed again. -/
theorem flag_pair {l : List BitField} (h : allFlags l = true) {f : BitField} (hf : f ∈ l) (v : Word) :
    (f, wordOfBool (f.bit v)) = (f, f.get v) := by rw [BitField.get_of_flag (allFlags_width h hf)]

/-! ### `CTR` -/

/-- The fields of `CTR` with their values. -/
def Ctr.pairs (L : CtrLayout) (c : Ctr) : List (BitField × Word) := [
  (L.sdaForceOut, wordOfBool c.sdaForceOut), (L.sclForceOut, wordOfBool c.sclForceOut),
  (L.sampleSclLevel, wordOfBool c.sampleSclLevel), (L.msMode, wordOfBool c.msMode),
  (L.transStart, wordOfBool c.transStart), (L.txLsbFirst, wordOfBool c.txLsbFirst),
  (L.rxLsbFirst, wordOfBool c.rxLsbFirst), (L.fsmRst, wordOfBool c.fsmRst)]

theorem Ctr.written_eq_pack (L : CtrLayout) (c : Ctr) : Ctr.written L c = packFields (Ctr.pairs L c) := rfl

theorem Ctr.pairs_ok {L : Layout} (h : L.wf = true) (c : Ctr) :
    fieldsOk ((Ctr.pairs L.ctr c).map Prod.fst) = true := (Layout.wf_ctr h).1

/-- Storing the packed fields of `CTR` gives the fields (R131). -/
theorem Ctr.ofWord_written {L : Layout} (h : L.wf = true) (c : Ctr) :
    Ctr.ofWord L.ctr (Ctr.written L.ctr c) = c := by
  have bit : ∀ f b, (f, wordOfBool b) ∈ Ctr.pairs L.ctr c → f ∈ L.ctr.fields →
      f.bit (Ctr.written L.ctr c) = b := fun f b hm hf =>
    packFields_bit (Ctr.pairs_ok h c) hm (allFlags_width (Layout.wf_ctr h).2 hf)
  cases c
  simp only [Ctr.ofWord, Ctr.mk.injEq]
  refine ⟨?_, ?_, ?_, ?_, ?_, ?_, ?_, ?_⟩ <;> exact bit _ _ (by simp [Ctr.pairs]) (by simp [CtrLayout.fields])

/-- The packed fields of a written value are its bits at the fields. -/
theorem Ctr.written_ofWord {L : Layout} (h : L.wf = true) (v : Word) :
    Ctr.written L.ctr (Ctr.ofWord L.ctr v) = v &&& definedBits L.ctr.fields := by
  have flags := (Layout.wf_ctr h).2
  rw [← packFields_fields, Ctr.written]
  simp only [Ctr.ofWord, CtrLayout.fields, List.map_cons, List.map_nil] at flags ⊢
  iterate 8 rw [flag_pair flags (by simp)]

/-! ### `SR` -/

/-- The stored fields of `SR` with their values. -/
def Sr.pairs (L : SrLayout) (r : Sr) : List (BitField × Word) := [
  (L.ackRec, wordOfBool r.ackRec), (L.slaveRw, wordOfBool r.slaveRw), (L.timeOut, wordOfBool r.timeOut),
  (L.arbLost, wordOfBool r.arbLost), (L.busBusy, wordOfBool r.busBusy),
  (L.slaveAddressed, wordOfBool r.slaveAddressed), (L.byteTrans, wordOfBool r.byteTrans),
  (L.sclMainStateLast, r.sclMainStateLast), (L.sclStateLast, r.sclStateLast)]

theorem Sr.toWord_eq_pack (L : SrLayout) (r : Sr) : r.toWord L = packFields (Sr.pairs L r) := rfl

/-- The fields of `SR` with their values, the counts among them. -/
def statusPairs (s : State) : List (BitField × Word) :=
  Sr.pairs s.params.layout.sr s.sr ++
    [(s.params.layout.sr.rxFifoCnt, countField s.rxq), (s.params.layout.sr.txFifoCnt, countField s.txq)]

theorem statusWord_eq_pack (s : State) : statusWord s = packFields (statusPairs s) := by
  rw [statusWord, Sr.toWord_eq_pack, ← packFields_append, statusPairs]

theorem statusPairs_ok {s : State} (h : s.params.layout.wf = true) :
    fieldsOk ((statusPairs s).map Prod.fst) = true := (Layout.wf_sr h).1

/-- The stored fields taken from a word and packed again are the word's bits at those fields. -/
theorem Sr.toWord_ofWord {L : Layout} (h : L.wf = true) (v : Word) :
    (Sr.ofWord L.sr v).toWord L.sr = v &&& definedBits L.sr.stored := by
  have flags := (Layout.wf_sr h).2.1
  rw [← packFields_fields, Sr.toWord]
  simp only [Sr.ofWord, SrLayout.stored, SrLayout.flags, List.map_cons, List.map_nil, List.cons_append,
    List.nil_append] at flags ⊢
  iterate 7 rw [flag_pair flags (by simp)]

/-- The stored fields of `SR` share no bit. -/
theorem Sr.pairs_ok {L : Layout} (h : L.wf = true) (r : Sr) : fieldsOk ((Sr.pairs L.sr r).map Prod.fst) = true := by
  have ok := (Layout.wf_sr h).1
  simp only [SrLayout.fields, SrLayout.stored, SrLayout.flags, List.cons_append, List.nil_append, Sr.pairs,
    List.map_cons, List.map_nil, fieldsOk, List.all_cons, List.all_nil, Bool.and_eq_true, Bool.and_true] at ok ⊢
  tauto

/-! ### `FIFO_CONF` -/

/-- The fields of `FIFO_CONF` with their values. -/
def FifoConf.pairs (L : FifoConfLayout) (f : FifoConf) : List (BitField × Word) := [
  (L.rxFifoFullThrhd, f.rxFifoFullThrhd), (L.txFifoEmptyThrhd, f.txFifoEmptyThrhd),
  (L.nonfifoEn, wordOfBool f.nonfifoEn), (L.fifoAddrCfgEn, wordOfBool f.fifoAddrCfgEn),
  (L.rxFifoRst, wordOfBool f.rxFifoRst), (L.txFifoRst, wordOfBool f.txFifoRst),
  (L.nonfifoRxThres, f.nonfifoRxThres), (L.nonfifoTxThres, f.nonfifoTxThres)]

theorem FifoConf.toWord_eq_pack (L : FifoConfLayout) (f : FifoConf) : f.toWord L = packFields (FifoConf.pairs L f) := rfl

theorem FifoConf.pairs_ok {L : Layout} (h : L.wf = true) (f : FifoConf) :
    fieldsOk ((FifoConf.pairs L.fifoConf f).map Prod.fst) = true := (Layout.wf_fifoConf h).1

/-- The fields of `FIFO_CONF` taken from a word and packed again are the word's bits at those fields. -/
theorem FifoConf.toWord_ofWord {L : Layout} (h : L.wf = true) (v : Word) :
    (FifoConf.ofWord L.fifoConf v).toWord L.fifoConf = v &&& definedBits L.fifoConf.fields := by
  have flags := (Layout.wf_fifoConf h).2
  rw [← packFields_fields, FifoConf.toWord]
  simp only [FifoConf.ofWord, FifoConfLayout.fields, FifoConfLayout.flags, List.map_cons, List.map_nil] at flags ⊢
  iterate 4 rw [flag_pair flags (by simp)]

/-! ### A slot -/

/-- The fields of a slot with their values. -/
def Slot.pairs (L : CmdLayout) (c : Slot) : List (BitField × Word) := [
  (doneField, wordOfBool c.done), (L.opCode, c.opCode.setWidth 32), (L.ackVal, wordOfBool c.ackVal),
  (L.ackExp, wordOfBool c.ackExp), (L.ackEn, wordOfBool c.ackEn), (L.byteNum, c.byteNum.setWidth 32)]

theorem Slot.toWord_eq_pack (L : CmdLayout) (c : Slot) : c.toWord L = packFields (Slot.pairs L c) := rfl

theorem Slot.pairs_ok {L : Layout} (h : L.wf = true) (c : Slot) :
    fieldsOk ((Slot.pairs L.cmd c).map Prod.fst) = true := (Layout.wf_cmd h).1

/-- The command of a slot's word is the command of the slot's fields; `done` is no part of it (R94). -/
theorem Slot.ofWrite_toWord {L : Layout} (h : L.wf = true) (c : Slot) :
    Slot.ofWrite L.cmd (c.toWord L.cmd) = { c with done := false } := by
  obtain ⟨-, h1, h2, h3, h4, h5⟩ := Layout.wf_cmd h
  have ok := Slot.pairs_ok h c
  rw [Slot.toWord_eq_pack]
  have wide : ∀ {n : Nat} (f : BitField) (x : BitVec n), f.width = n → n ≤ 32 → (f, x.setWidth 32) ∈ Slot.pairs L.cmd c →
      (f.get (packFields (Slot.pairs L.cmd c))).setWidth n = x := fun {n} f x hw hn hm => by
    refine BitVec.eq_of_getLsbD_eq fun k hk => ?_
    rw [BitVec.getLsbD_setWidth, BitField.getLsbD_get, packFields_getLsbD ok hm (by omega), BitVec.getLsbD_setWidth]
    simp [hk, hw, show k < 32 by omega]
  simp only [Slot.ofWrite, CmdLayout.byteNumOf, CmdLayout.opCodeOf, Slot.mk.injEq, and_true]
  exact ⟨wide _ _ h4 (by omega) (by simp [Slot.pairs]), packFields_bit ok (by simp [Slot.pairs]) h1,
    packFields_bit ok (by simp [Slot.pairs]) h2, packFields_bit ok (by simp [Slot.pairs]) h3,
    wide _ _ h5 (by omega) (by simp [Slot.pairs])⟩

/-- The word of a slot just written is the written word's bits at the fields. -/
theorem Slot.toWord_ofWrite {L : Layout} (h : L.wf = true) (v : Word) :
    (Slot.ofWrite L.cmd v).toWord L.cmd = v &&& definedBits L.cmd.fields := by
  rw [← commandWord_of_fields h, Slot.toWord]
  have : doneField.place (wordOfBool false) = 0#32 := by decide
  simp only [Slot.ofWrite, this, BitVec.zero_or]

end Sys2Proof.Machine
end

