-- ==== Sys2Proof/Tests/Slice0.lean ====
section
/-! SUPPORT. The author's own tests: ill-formed terms refused, words written out from the spec's encodings decoded, the
spec's worked vectors (95_test_vectors.md), and for every statement with hypotheses a witness that meets them. Expected
values come from the spec's vectors and rules, not from the model. -/

namespace Sys2Proof.Tests

open Sys2Proof Sys2Proof.Machine

/-! ### Helpers -/

/-- The decoder gives exactly this instruction, under the default parameters. -/
def decodesTo (e : Encoded) (i : Instr) : Bool :=
  match decode defaultParams e with
  | .ok j => j == i
  | .error _ => false

/-- The decoder refuses, for this reason. -/
def refusedAs (window : Nat) (e : Encoded) (r : DecodeError) : Bool :=
  match decode { defaultParams with windowBytes := window } e with
  | .ok _ => false
  | .error r' => r' == r

/-- The instruction answers a next state with this property. -/
def after (i : Instr) (s : State) (p : State → Bool) : Bool :=
  match exec i s with
  | .next t => p t
  | .fault _ => false
  | .refused _ => false

/-- The step answers a next state with this property. -/
def afterStep (s : State) (p : State → Bool) : Bool :=
  match step s with
  | .next t => p t
  | .fault _ => false
  | .refused _ => false

/-- The reset state with these bytes to send, these slots written, and these transport answers. -/
def ready (txq : List Byte) (slots : List (Fin 16 × Word)) (begins : List BeginResult) (recvs : List Byte) : State :=
  slots.foldl (fun s p => writeSlot p.1 p.2 s)
    { State.reset with txq := txq, beginAnswers := begins, recvAnswers := recvs }

/-- The reset state with an access pending. -/
def pendingAccess (a : Access) : State := { State.reset with host := [.access a] }

/-- A `LAYOUT` that is not the default: the fields of `CTR` and of the command word from the top down, END and STOP's
events swapped, a wider threshold. -/
def movedLayout : Layout :=
  { defaultLayout with
    ctr := { sdaForceOut := ⟨31, 1⟩, sclForceOut := ⟨30, 1⟩, sampleSclLevel := ⟨29, 1⟩, msMode := ⟨0, 1⟩,
             transStart := ⟨1, 1⟩, txLsbFirst := ⟨26, 1⟩, rxLsbFirst := ⟨25, 1⟩, fsmRst := ⟨24, 1⟩ }
    fifoConf := { defaultFifoConfLayout with nonfifoTxThres := ⟨20, 12⟩ }
    cmd := { byteNum := ⟨23, 8⟩, ackEn := ⟨22, 1⟩, ackExp := ⟨21, 1⟩, ackVal := ⟨20, 1⟩, opCode := ⟨0, 3⟩ }
    events := { defaultEventLayout with endDetect := 7, transComplete := 3 } }

/-- The parameters with that `LAYOUT`. -/
def movedParams : Params := { defaultParams with layout := movedLayout }

/-- The reset state of a block with that `LAYOUT`. -/
def movedState : State := { State.reset with params := movedParams }

/-- Thirty-two bytes. -/
def fullQueue : List Byte := List.replicate 32 0x5A

/-! ### Well-formedness: an ill-formed term for each check -/

theorem test_wf_refuses_misaligned_unknown : (Instr.rdUnknown 0x0e).wf 0x1000 = false := by decide
theorem test_wf_refuses_outside_unknown : (Instr.rdUnknown 0x1000).wf 0x1000 = false := by decide
theorem test_wf_refuses_mapped_unknown : (Instr.rdUnknown 0x58).wf 0x1000 = false := by decide
theorem test_wf_refuses_write_misaligned : (Instr.wrUnknown 0x01 0).wf 0x1000 = false := by decide
theorem test_wf_refuses_write_outside : (Instr.wrUnknown 0x98 0).wf 0x98 = false := by decide
theorem test_wf_refuses_write_mapped : (Instr.wrUnknown 0x1c 0).wf 0x1000 = false := by decide
theorem test_wf_accepts_unknown : (Instr.rdUnknown 0x98).wf 0x1000 = true ∧ (Instr.wrUnknown 0x54 7).wf 0x98 = true := by
  decide
theorem test_params_wf_refuses : ({ defaultParams with windowBytes := 0x96 } : Params).wf = false ∧
    ({ defaultParams with windowBytes := 0x94 } : Params).wf = false ∧
    ({ defaultParams with fifoConfReset := 0x00001000 } : Params).wf = false ∧
    ({ defaultParams with srWriteMask := 0x00000100 } : Params).wf = false := by decide
/-- A field beyond bit 31, two fields that share a bit, a flag of two bits, a count of five, a `byte_num` of seven, a field
on bit 31 of a slot, two events on one bit, an event at bit 16 (R4, R5, R98). -/
theorem test_layout_wf_refuses :
    ({ defaultLayout with ctr := { defaultCtrLayout with fsmRst := ⟨32, 1⟩ } } : Layout).wf = false ∧
    ({ defaultLayout with ctr := { defaultCtrLayout with fsmRst := ⟨5, 1⟩ } } : Layout).wf = false ∧
    ({ defaultLayout with ctr := { defaultCtrLayout with fsmRst := ⟨10, 2⟩ } } : Layout).wf = false ∧
    ({ defaultLayout with sr := { defaultSrLayout with rxFifoCnt := ⟨8, 5⟩ } } : Layout).wf = false ∧
    ({ defaultLayout with fifoConf := { defaultFifoConfLayout with nonfifoTxThres := ⟨19, 6⟩ } } : Layout).wf = false ∧
    ({ defaultLayout with cmd := { defaultCmdLayout with byteNum := ⟨0, 7⟩ } } : Layout).wf = false ∧
    ({ defaultLayout with cmd := { defaultCmdLayout with opCode := ⟨29, 3⟩ } } : Layout).wf = false ∧
    ({ defaultLayout with events := { defaultEventLayout with detStart := 14 } } : Layout).wf = false ∧
    ({ defaultLayout with events := { defaultEventLayout with detStart := 16 } } : Layout).wf = false := by decide
theorem test_layout_wf_accepts : defaultParams.wf = true ∧ movedParams.wf = true := by decide
/-- The default of `SR_WRITE_MASK` is every stored field (R5), and the defined bits of R21, R23 and R93. -/
theorem test_default_defined_bits : definedBits defaultLayout.sr.stored = 0x7700007F ∧
    definedBits defaultLayout.ctr.fields = 0x000004F7 ∧ definedBits defaultLayout.fifoConf.fields = 0x03FFFFFF ∧
    definedBits defaultLayout.cmd.fields = 0x00003FFF := by decide

/-! ### Decoding: every constructor from a word written out from the spec's encoding -/

/-- The reads and writes of the registers, by the offsets of R62; a value little-endian (R65). -/
theorem test_decode_registers :
    decodesTo (.mmio (.read 0x04 4)) .rdCtr = true ∧
    decodesTo (.mmio (.write 0x04 [0x78, 0x56, 0x34, 0x12])) (.wrCtr 0x12345678) = true ∧
    decodesTo (.mmio (.read 0x08 4)) .rdSr = true ∧
    decodesTo (.mmio (.write 0x08 [0x78, 0x56, 0x34, 0x12])) (.wrSr 0x12345678) = true ∧
    decodesTo (.mmio (.read 0x18 4)) .rdFifoConf = true ∧
    decodesTo (.mmio (.write 0x18 [0x78, 0x56, 0x34, 0x12])) (.wrFifoConf 0x12345678) = true ∧
    decodesTo (.mmio (.read 0x1c 4)) .rdData = true ∧
    decodesTo (.mmio (.write 0x1c [0x78, 0x56, 0x34, 0x12])) (.wrData 0x12345678) = true ∧
    decodesTo (.mmio (.read 0x20 4)) .rdIntRaw = true ∧
    decodesTo (.mmio (.write 0x20 [0x78, 0x56, 0x34, 0x12])) (.wrIntRaw 0x12345678) = true ∧
    decodesTo (.mmio (.read 0x24 4)) .rdIntClr = true ∧
    decodesTo (.mmio (.write 0x24 [0x78, 0x56, 0x34, 0x12])) (.wrIntClr 0x12345678) = true ∧
    decodesTo (.mmio (.read 0x28 4)) .rdIntEna = true ∧
    decodesTo (.mmio (.write 0x28 [0x78, 0x56, 0x34, 0x12])) (.wrIntEna 0x12345678) = true ∧
    decodesTo (.mmio (.read 0x2c 4)) .rdIntSt = true ∧
    decodesTo (.mmio (.write 0x2c [0x78, 0x56, 0x34, 0x12])) (.wrIntSt 0x12345678) = true := by
  decide

/-- The reads and writes of slots 0 to 7, at 0x58 + 4*i (R62). -/
theorem test_decode_low_slots :
    decodesTo (.mmio (.read 0x58 4)) .rdCmd0 = true ∧
    decodesTo (.mmio (.write 0x58 [0x02, 0x08, 0x00, 0x00])) (.wrCmd0 0x00000802) = true ∧
    decodesTo (.mmio (.read 0x5c 4)) .rdCmd1 = true ∧
    decodesTo (.mmio (.write 0x5c [0x02, 0x08, 0x00, 0x00])) (.wrCmd1 0x00000802) = true ∧
    decodesTo (.mmio (.read 0x60 4)) .rdCmd2 = true ∧
    decodesTo (.mmio (.write 0x60 [0x02, 0x08, 0x00, 0x00])) (.wrCmd2 0x00000802) = true ∧
    decodesTo (.mmio (.read 0x64 4)) .rdCmd3 = true ∧
    decodesTo (.mmio (.write 0x64 [0x02, 0x08, 0x00, 0x00])) (.wrCmd3 0x00000802) = true ∧
    decodesTo (.mmio (.read 0x68 4)) .rdCmd4 = true ∧
    decodesTo (.mmio (.write 0x68 [0x02, 0x08, 0x00, 0x00])) (.wrCmd4 0x00000802) = true ∧
    decodesTo (.mmio (.read 0x6c 4)) .rdCmd5 = true ∧
    decodesTo (.mmio (.write 0x6c [0x02, 0x08, 0x00, 0x00])) (.wrCmd5 0x00000802) = true ∧
    decodesTo (.mmio (.read 0x70 4)) .rdCmd6 = true ∧
    decodesTo (.mmio (.write 0x70 [0x02, 0x08, 0x00, 0x00])) (.wrCmd6 0x00000802) = true ∧
    decodesTo (.mmio (.read 0x74 4)) .rdCmd7 = true ∧
    decodesTo (.mmio (.write 0x74 [0x02, 0x08, 0x00, 0x00])) (.wrCmd7 0x00000802) = true := by
  decide

/-- The reads and writes of slots 8 to 15, at 0x58 + 4*i (R62). -/
theorem test_decode_high_slots :
    decodesTo (.mmio (.read 0x78 4)) .rdCmd8 = true ∧
    decodesTo (.mmio (.write 0x78 [0x02, 0x08, 0x00, 0x00])) (.wrCmd8 0x00000802) = true ∧
    decodesTo (.mmio (.read 0x7c 4)) .rdCmd9 = true ∧
    decodesTo (.mmio (.write 0x7c [0x02, 0x08, 0x00, 0x00])) (.wrCmd9 0x00000802) = true ∧
    decodesTo (.mmio (.read 0x80 4)) .rdCmd10 = true ∧
    decodesTo (.mmio (.write 0x80 [0x02, 0x08, 0x00, 0x00])) (.wrCmd10 0x00000802) = true ∧
    decodesTo (.mmio (.read 0x84 4)) .rdCmd11 = true ∧
    decodesTo (.mmio (.write 0x84 [0x02, 0x08, 0x00, 0x00])) (.wrCmd11 0x00000802) = true ∧
    decodesTo (.mmio (.read 0x88 4)) .rdCmd12 = true ∧
    decodesTo (.mmio (.write 0x88 [0x02, 0x08, 0x00, 0x00])) (.wrCmd12 0x00000802) = true ∧
    decodesTo (.mmio (.read 0x8c 4)) .rdCmd13 = true ∧
    decodesTo (.mmio (.write 0x8c [0x02, 0x08, 0x00, 0x00])) (.wrCmd13 0x00000802) = true ∧
    decodesTo (.mmio (.read 0x90 4)) .rdCmd14 = true ∧
    decodesTo (.mmio (.write 0x90 [0x02, 0x08, 0x00, 0x00])) (.wrCmd14 0x00000802) = true ∧
    decodesTo (.mmio (.read 0x94 4)) .rdCmd15 = true ∧
    decodesTo (.mmio (.write 0x94 [0x02, 0x08, 0x00, 0x00])) (.wrCmd15 0x00000802) = true := by
  decide

/-- Offsets outside the map (R64, R101): 0x00, 0x0c, 0x54, the first past the slots, the last of the window. -/
theorem test_decode_unknown_offsets :
    decodesTo (.mmio (.read 0x00 4)) (.rdUnknown 0x00) = true ∧
    decodesTo (.mmio (.read 0x54 4)) (.rdUnknown 0x54) = true ∧
    decodesTo (.mmio (.read 0x98 4)) (.rdUnknown 0x98) = true ∧
    decodesTo (.mmio (.read 0xffc 4)) (.rdUnknown 0xffc) = true ∧
    decodesTo (.mmio (.write 0x0c [0xff, 0xff, 0x0f, 0x00])) (.wrUnknown 0x0c 0x000FFFFF) = true := by
  decide

/-- The command words of R103 to R105 and of vectors 2.2, bit by bit from bit 31: done, 17 unspecified bits, opcode,
ack_val, ack_exp, ack_en, byte_num. -/
theorem test_decode_commands :
    decodesTo (.cmd 0b0_00000000000000000_000_0_0_0_00000000#32) (.cmdRestart 0 false false false) = true ∧
    decodesTo (.cmd 0b0_00000000000000000_001_0_0_0_11111111#32) (.cmdWrite 255 false false false) = true ∧
    decodesTo (.cmd 0b0_00000000000000000_001_0_1_1_00000011#32) (.cmdWrite 3 true true false) = true ∧
    decodesTo (.cmd 0b0_00000000000000000_001_1_0_0_00000010#32) (.cmdWrite 2 false false true) = true ∧
    decodesTo (.cmd 0b1_00000000000000000_010_0_0_0_00000001#32) (.cmdRead 1 false false false) = true ∧
    decodesTo (.cmd 0b0_00000000000000000_011_0_0_0_00000000#32) (.cmdStop 0 false false false) = true ∧
    decodesTo (.cmd 0b0_00000000000000000_100_0_0_0_00000000#32) (.cmdEnd 0 false false false) = true ∧
    decodesTo (.cmd 0b0_00000000000000000_101_0_0_0_00000000#32) (.cmdUnknown5 0 false false false) = true ∧
    decodesTo (.cmd 0b0_00000000000000000_110_0_1_0_00000000#32) (.cmdUnknown6 0 false true false) = true ∧
    decodesTo (.cmd 0b0_11111111111111111_111_1_0_1_00000000#32) (.cmdUnknown7 0 true false true) = true := by
  decide

/-- Vectors V1.17 and V1.18: narrow, misaligned and outside accesses (R63, R66). -/
theorem test_decode_refuses :
    refusedAs 0x1000 (.mmio (.read 0x04 1)) .badWidth = true ∧
    refusedAs 0x1000 (.mmio (.read 0x04 8)) .badWidth = true ∧
    refusedAs 0x1000 (.mmio (.write 0x04 [0x13, 0x00])) .badWidth = true ∧
    refusedAs 0x1000 (.mmio (.read 0x06 4)) .misaligned = true ∧
    refusedAs 0x1000 (.mmio (.write 0x1d [0, 0, 0, 0])) .misaligned = true ∧
    refusedAs 0x1000 (.mmio (.read 0x1000 4)) .outsideWindow = true ∧
    refusedAs 0x98 (.mmio (.write 0x98 [0, 0, 0, 0])) .outsideWindow = true := by
  decide

/-- The numbers of spec/opcode_table.json (log entry 3): an offset of the map is its read, any other number a command,
a row without bits an unknown offset. -/
theorem test_table_numbers :
    decodeTableWord 32 0x04 = some .rdCtr ∧ decodeTableWord 32 0x94 = some .rdCmd15 ∧
    decodeTableWord 32 0x801 = some (.cmdWrite 1 false false false) ∧
    decodeTableWord 32 0x3800 = some (.cmdUnknown7 0 false false false) ∧
    decodeTableWord 0 0 = some (.rdUnknown 0) := by
  decide

/-- The address byte (R96; the document's example 0x10 is "address 0x08, write direction"). -/
theorem test_address_byte :
    (addressOf 0x10 = 0x08 ∧ directionOf 0x10 = .write) ∧ (addressOf 0xA1 = 0x50 ∧ directionOf 0xA1 = .read) ∧
    (addressOf 0x7E = 0x3F ∧ directionOf 0x7E = .write) := by
  decide

/-- Another `LAYOUT` changes the encodings (D1): opcode 1 in bits 2:0, `byte_num` 5 from bit 23, `ack_en` at bit 22. -/
theorem test_decode_moved_layout :
    decodeCommand movedLayout.cmd 0b0_00000101_1_0_0_00000000000000000_001#32 = .cmdWrite 5 true false false ∧
    decodeCommand movedLayout.cmd 0x00000802 = .cmdRead 0 false false false := by decide

/-! ### Host operations (vectors 2.1, 2.3, 2.5) -/

/-- V1.2. -/
theorem test_wr_ctr_stores : after (.wrCtr 0x13) State.reset (fun t => t.ctr.toWord t.params.layout.ctr == 0x13 && t.out == []) = true := by
  decide
/-- V1.4. -/
theorem test_wr_ctr_all_ones : after (.wrCtr 0xFFFFFFFF) State.reset
    (fun t => t.ctr.toWord t.params.layout.ctr == 0x4D7 && t.intRaw == 0 && t.out == []) = true := by decide
/-- V1.5. -/
theorem test_wr_ctr_slave_faults : after (.wrCtr 0x23) State.reset (fun t => t.fault == some .slaveModeSelected &&
    t.ctr.toWord t.params.layout.ctr == 3 && t.out == [.diag .slaveModeRequest]) = true := by decide
/-- V1.1. -/
theorem test_rd_ctr_reset : after .rdCtr State.reset (fun t => t.out == [.reply 3]) = true := by decide
/-- V1.6. -/
theorem test_wr_sr_masked : after (.wrSr 0xFFFFFFFF) State.reset (fun t => statusWord t == 0x7700007F) = true := by decide
/-- V1.7. -/
theorem test_wr_sr_keeps_counts : after (.wrSr 0x00FC3F00) (ready [1, 2] [] [] [])
    (fun t => statusWord t == 0x00080000) = true := by decide
/-- V2.5. -/
theorem test_rd_sr_counts : after .rdSr { State.reset with rxq := [0x5A, 0xC3] }
    (fun t => t.out == [.reply 0x200]) = true := by decide
/-- V1.8. -/
theorem test_wr_fifo_conf_all_ones : after (.wrFifoConf 0xFFFFFFFF) { State.reset with txq := [1], rxq := [2] }
    (fun t => t.fifoConf.toWord t.params.layout.fifoConf == 0x03FFFFFF && t.txq == [] && t.rxq == []) = true := by decide
/-- V2.6. -/
theorem test_wr_fifo_conf_rx_reset : after (.wrFifoConf 0x1000) { State.reset with txq := [1, 2], rxq := fullQueue }
    (fun t => t.txq == [1, 2] && t.rxq == [] && statusWord t == 0x00080000 && t.intRaw == 0) = true := by decide
/-- Distinct thresholds land in their own fields (R23, R136). -/
theorem test_rd_fifo_conf_fields : after .rdFifoConf
    { State.reset with fifoConf := { FifoConf.ofWord defaultFifoConfLayout 0 with rxFifoFullThrhd := 0x0B, nonfifoTxThres := 0x15 } }
    (fun t => t.out == [.reply 0x0150000B]) = true := by decide
/-- V2.2. -/
theorem test_wr_data_lane : after (.wrData 0xFFFFFF34) State.reset (fun t => t.txq == [0x34] && t.out == []) = true := by
  decide
/-- V2.3, the push that overflows. -/
theorem test_wr_data_overflow : after (.wrData 0x20) (ready fullQueue [] [] [])
    (fun t => t.txq == fullQueue && t.out == [.diag .txFifoOverflow] && t.intRaw == 0) = true := by decide
/-- V2.5. -/
theorem test_rd_data_pops : after .rdData { State.reset with rxq := [0x5A, 0xC3] }
    (fun t => t.rxq == [0xC3] && t.out == [.reply 0x5A]) = true := by decide
/-- V2.4; the value returned is free. -/
theorem test_rd_data_underflow : after .rdData State.reset
    (fun t => t.rxq == [] && t.out.head? == some (.diag .rxFifoUnderflow) && t.out.length == 2) = true := by decide
/-- V4.6. -/
theorem test_rd_int_raw_keeps_line : after .rdIntRaw { State.reset with intRaw := 8, intSt := 8, irq := true }
    (fun t => t.out == [.reply 8] && t.intRaw == 0 && t.intSt == 8 && t.irq) = true := by decide
/-- V1.12. -/
theorem test_wr_int_raw_ignored : after (.wrIntRaw 0xFFFFFFFF) { State.reset with intRaw := 0x80 }
    (fun t => t.intRaw == 0x80 && t.out == []) = true := by decide
/-- V4.4, V4.7. -/
theorem test_wr_int_clr : after (.wrIntClr 0xFFFFFFFF) { State.reset with intRaw := 8, intEna := 8, intSt := 8, irq := true }
    (fun t => t.intSt == 0 && !t.irq && t.intRaw == 8 && t.intEna == 8 && t.out == [.irq false]) = true := by decide
/-- V1.11. -/
theorem test_rd_int_clr : after .rdIntClr { State.reset with intSt := 8, irq := true }
    (fun t => t.out == [.reply 0] && t.intSt == 8 && t.irq) = true := by decide
/-- V1.10, V4.2. -/
theorem test_wr_int_ena : after (.wrIntEna 0x12345678) { State.reset with intRaw := 8 }
    (fun t => t.intEna == 0x5678 && t.intSt == 0 && !t.irq) = true := by decide
/-- V1.10. -/
theorem test_rd_int_ena : after .rdIntEna { State.reset with intEna := 0x5678 }
    (fun t => t.out == [.reply 0x5678]) = true := by decide
/-- P2, step 14. -/
theorem test_rd_int_st : after .rdIntSt { State.reset with intRaw := 0x1288, intSt := 0x88, irq := true }
    (fun t => t.out == [.reply 0x88] && t.intSt == 0x88) = true := by decide
/-- V1.13. -/
theorem test_wr_int_st_ignored : after (.wrIntSt 0) { State.reset with intSt := 0x88, irq := true }
    (fun t => t.intSt == 0x88 && t.irq) = true := by decide
/-- V1.14, on every slot: the slot written is the one of the operation, and no other. -/
theorem test_wr_cmd_slots : ∀ i : Fin 16, after (wrCmd i 0xFFFFFFFF) State.reset
    (fun t => (t.slot i).toWord t.params.layout.cmd == 0x3FFF && (t.slot (i + 1)).toWord t.params.layout.cmd == 0x80000000) = true := by decide
/-- V1.15 and R148, on every slot. -/
theorem test_rd_cmd_slots : ∀ i : Fin 16, after (rdCmd i) (ready [] [(i, 0x0F03)] [] [])
    (fun t => t.out == [.reply 0x0F03]) = true := by decide
/-- V1.15. -/
theorem test_rd_unknown : after (.rdUnknown 0x98) State.reset
    (fun t => t.out == [.diag (.unknownOffsetRead 0x98), .reply 0]) = true := by decide
/-- V1.16. -/
theorem test_wr_unknown : after (.wrUnknown 0x0c 0x000FFFFF) State.reset
    (fun t => t.out == [.diag (.unknownOffsetWrite 0x0c 0x000FFFFF)]) = true := by decide

/-- Under another `LAYOUT` the fields and the trigger are where it has them: `trans_start` is bit 1, so 0xC0000001 stores
three fields and 0x00000003 runs the pass. -/
theorem test_ctr_moved_layout :
    after (.wrCtr 0xC0000001) movedState
      (fun t => t.ctr == { Ctr.atReset with msMode := true } && t.ctr.toWord movedLayout.ctr == 0xC0000001) = true ∧
    after (.wrCtr 0x00000003) (writeSlot 0 0x00000003 movedState)
      (fun t => t.ctr.toWord movedLayout.ctr == 1 && t.out == [.busEnd] && t.intRaw == 0x0008 &&
        (t.slot 0).toWord movedLayout.cmd == 0x80000003) = true := by decide
/-- A threshold as wide as `LAYOUT` has it. -/
theorem test_wide_threshold : after (.wrFifoConf 0xFFF00000) movedState
    (fun t => t.fifoConf.nonfifoTxThres == 0xFFF && t.fifoConf.toWord movedLayout.fifoConf == 0xFFF00000) = true := by
  decide

/-! ### Commands (vectors 2.4) -/

/-- V3.12. -/
theorem test_restart : after (.cmdRestart 0 false false false) { State.reset with sr := { Sr.atReset with busBusy := true } }
    (fun t => t.out == [.busEnd] && statusWord t == 0 && t.intRaw == 0) = true := by decide
/-- V3.4: the data phase runs dry. -/
theorem test_write_runs_dry : after (.cmdWrite 4 false false false) (ready [0x10, 0x01] [(0, 0x804)] [.ok] [])
    (fun t => t.out == [.busBegin 0x08 .write .ok, .busSend 0x01] && t.intRaw == 0x1202 && statusWord t == 0x51 &&
      (t.slot 0).toWord t.params.layout.cmd == 0x80000804) = true := by decide
/-- P3, slot 0: nobody answers. -/
theorem test_write_nack : after (.cmdWrite 2 false false false)
    { ready [0x7E, 0x55] [(0, 0x802)] [.nack] [] with intEna := 0x400 }
    (fun t => t.out == [.busBegin 0x3F .write .nack, .diag (.noAck 0x3F), .irq true] && t.txq == [0x55] &&
      t.intRaw == 0x400 && t.intSt == 0x400 && !t.sr.busBusy) = true := by decide
/-- V3.7: the case of R198 has no next state. -/
theorem test_write_zero_acknowledged : after (.cmdWrite 0 false false false) (ready [0x10] [(0, 0x800)] [.ok] [])
    (fun _ => true) = false := by decide
/-- V3.6 and V3.8: a zero count elsewhere runs. -/
theorem test_write_zero_elsewhere :
    after (.cmdWrite 0 false false false) { State.reset with sr := { Sr.atReset with busBusy := true } }
      (fun t => t.out == [] && t.intRaw == 0x1000 && statusWord t == 0x10) = true ∧
    after (.cmdWrite 0 false false false) State.reset (fun t => t.out == [] && t.intRaw == 0x0002) = true := by decide
/-- Section 2.2: `WRITE n=2 ack_en ack_exp` and `WRITE n=2 ack_val` after a successful address phase. -/
theorem test_write_ack_val :
    after (.cmdWrite 2 true true false) (ready [0x10, 1] [(0, 0xB02)] [.ok] [])
      (fun t => (t.slot 0).toWord t.params.layout.cmd == 0x80000F02) = true ∧
    after (.cmdWrite 2 false false true) (ready [0x10, 1] [(0, 0xC02)] [.ok] [])
      (fun t => (t.slot 0).toWord t.params.layout.cmd == 0x80000802) = true := by decide
/-- V3.9. -/
theorem test_read_one_byte : after (.cmdRead 5 false false false) (ready [] [(0, 0x1005)] [] [0x5A])
    (fun t => t.out == [.busRecv 0x5A] && t.rxq == [0x5A] && t.intRaw == 0 && (t.slot 0).toWord t.params.layout.cmd == 0x80001005) = true := by
  decide
/-- P4: the byte that fills the FIFO raises `rx_fifo_full`; a full FIFO raises `rx_fifo_ovf` and is not read. -/
theorem test_read_full :
    after (.cmdRead 1 false false false) { State.reset with rxq := fullQueue.drop 1, recvAnswers := [0x77] }
      (fun t => t.rxq.length == 32 && t.intRaw == 0x0001) = true ∧
    after (.cmdRead 1 false false false) { State.reset with rxq := fullQueue, recvAnswers := [0x77] }
      (fun t => t.rxq == fullQueue && t.intRaw == 0x0004 && t.out == []) = true := by decide
/-- V3.11. -/
theorem test_stop : after (.cmdStop 0 false false false) State.reset
    (fun t => t.out == [.busEnd] && t.intRaw == 0x0080 && statusWord t == 0) = true := by decide
/-- V4.1 and V4.3. -/
theorem test_end :
    after (.cmdEnd 0 false false false) State.reset (fun t => t.intRaw == 8 && t.intSt == 0 && !t.irq) = true ∧
    after (.cmdEnd 0 false false false) { State.reset with intEna := 8 }
      (fun t => t.intRaw == 8 && t.intSt == 8 && t.irq && t.out == [.irq true]) = true := by decide
/-- V1.14, V3.14: the unknown opcodes complete the slot and do nothing else. -/
theorem test_unknown_opcodes : ∀ i ∈ [Instr.cmdUnknown5 255 true true true, .cmdUnknown6 255 true true true,
      .cmdUnknown7 255 true true true],
    after i (ready [1] [(0, 0x3FFF)] [] []) (fun t => (t.slot 0).toWord t.params.layout.cmd == 0x80003FFF && t.out == [] && t.txq == [1]) =
      true := by decide

/-! ### The engine and a step -/

/-- P1 (T6), its last access as one step. -/
theorem test_program_p1 : afterStep
    { ready [0x10, 0xAB] [(0, 0x802)] [.ok] [] with host := [.access (.write 0x04 [0x33, 0x00, 0x00, 0x00])] }
    (fun t => t.out == [.busBegin 0x08 .write .ok, .busSend 0xAB] && statusWord t == 0x51 && t.intRaw == 0x1200 &&
      t.ctr.toWord t.params.layout.ctr == 0x13 && (t.slot 0).toWord t.params.layout.cmd == 0x80000802 && t.txq == [] && !t.irq && t.host == []) = true := by
  decide
/-- V3.14: END does not stop a pass, and an unknown opcode is skipped over. -/
theorem test_pass_goes_on : after (.wrCtr 0x33) (ready [] [(0, 0x2000), (1, 0x3000), (2, 0x1800)] [] [])
    (fun t => t.intRaw == 0x88 && t.out == [.busEnd] && (t.slot 1).toWord t.params.layout.cmd == 0x80003000) = true := by decide
/-- V5.1: a warm reset keeps the slots' other fields and lowers the line. -/
theorem test_reset_step : afterStep
    { ready [1] [(3, 0x1800)] [] [] with host := [.reset], intSt := 0x88, intRaw := 0x1288, irq := true, rxq := [2] }
    (fun t => t.ctr.toWord t.params.layout.ctr == 3 && t.intRaw == 0 && t.intSt == 0 && t.out == [.irq false] && t.txq == [] &&
      t.rxq == [] && (t.slot 3).toWord t.params.layout.cmd == 0x80001800) = true := by decide
/-- V5.3: a reset does not clear the fault. -/
theorem test_faulted_reset_stops : afterStep { State.reset with fault := some .slaveModeSelected, host := [.reset] }
    (fun _ => true) = false := by decide
/-- A number of the opcode table placed by `withFetchWord` is what the next step runs. -/
theorem test_with_fetch_word :
    afterStep (State.reset.withFetchWord 32 0x04) (fun t => t.out == [.reply 3]) = true ∧
    afterStep (State.reset.withFetchWord 32 0x1800) (fun t => t.out == [.busEnd] && t.intRaw == 0x80) = true := by decide

/-! ### Witnesses: states and operands that meet the hypotheses of the statements -/

theorem witness_DecodeOfEncodeIsIdentity :
    (({ defaultParams with windowBytes := 0x98 } : Params).wf = true ∧ (Instr.rdUnknown 0x54).wf 0x98 = true) ∧
    (defaultParams.wf = true ∧ (Instr.wrUnknown 0xffc 1).wf defaultParams.windowBytes = true) ∧
    (movedParams.wf = true ∧ (Instr.cmdWrite 255 true true true).wf movedParams.windowBytes = true) := by decide
theorem witness_CommandWordsAgreeUpToUnspecifiedBits : defaultLayout.wf = true ∧ movedLayout.wf = true := by decide
theorem witness_AlignedOffsetsInWindowAreServed :
    (0x04 % 4 = 0 ∧ 0x04 < 0x98) ∧ (0x0ffc % 4 = 0 ∧ 0x0ffc < 0x1000 ∧ isMapped 0x0ffc = false) := by decide
theorem witness_RegisterBytesAreLittleEndian : ([0, 1, 2] : List Byte).length ≠ 4 ∧ ([0, 1, 2, 3, 4] : List Byte).length ≠ 4 := by
  decide
theorem witness_StepRunsDecodedAccess :
    (∃ (s : State) (a : Access) (rest : List HostEvent) (i : Instr), s.fault = none ∧ s.host = .access a :: rest ∧
      decode s.params (.mmio a) = .ok i) ∧
    (∃ s : State, s.fault = none ∧ s.host = []) :=
  ⟨⟨pendingAccess (.read 0x04 4), .read 0x04 4, [], .rdCtr, rfl, rfl, rfl⟩, ⟨State.reset, rfl, rfl⟩⟩
/-- One witness for each of the six clauses: widths 2 and 0 bytes, offset 6 read and write, offset 0x1000 read and
write. -/
theorem witness_StepRefusesInadmissibleAccess :
    ((pendingAccess (.read 0x04 2)).fault = none ∧ (pendingAccess (.read 0x04 2)).host = [.access (.read 0x04 2)] ∧ 2 ≠ 4) ∧
    ((pendingAccess (.write 0x04 [])).host = [.access (.write 0x04 [])] ∧ ([] : List Byte).length ≠ 4) ∧
    ((pendingAccess (.read 6 4)).host = [.access (.read 6 4)] ∧ 6 % 4 ≠ 0) ∧
    ((pendingAccess (.write 6 (bytesOfWord 0))).host = [.access (.write 6 (bytesOfWord 0))] ∧ 6 % 4 ≠ 0) ∧
    ((pendingAccess (.read 0x1000 4)).host = [.access (.read 0x1000 4)] ∧ 0x1000 % 4 = 0 ∧
      (pendingAccess (.read 0x1000 4)).params.windowBytes ≤ 0x1000) ∧
    ((pendingAccess (.write 0x1000 (bytesOfWord 0))).host = [.access (.write 0x1000 (bytesOfWord 0))] ∧
      (pendingAccess (.write 0x1000 (bytesOfWord 0))).params.windowBytes ≤ 0x1000) := by decide
theorem witness_ResetOperationSetsResetValues :
    ∃ (s : State) (rest : List HostEvent), s.fault = none ∧ s.host = .reset :: rest ∧ s.irq = true :=
  ⟨{ State.reset with host := [.reset], irq := true, intSt := 8 }, [], rfl, rfl, rfl⟩
theorem witness_SlaveModeRequestFaultsForEver :
    (0x03 : Word).getLsbD defaultLayout.ctr.msMode.lo ≠ State.reset.params.masterMode ∧
    (0x23 : Word).getLsbD defaultLayout.ctr.msMode.lo ≠ State.reset.params.masterMode ∧
    ({ State.reset with fault := some .slaveModeSelected } : State).fault = some .slaveModeSelected := by decide
/-- The first and the last admitted offset, a read and a write; a slave value; a pass that meets the case of R198. -/
theorem witness_AdmittedAccessYieldsNextState :
    ((pendingAccess (.read 0 4)).host = [.access (.read 0 4)] ∧ 0 < (pendingAccess (.read 0 4)).params.windowBytes) ∧
    ((pendingAccess (.write 0xffc (bytesOfWord 7))).host = [.access (.write 0xffc (bytesOfWord 7))] ∧
      0xffc < (pendingAccess (.write 0xffc (bytesOfWord 7))).params.windowBytes ∧ 0xffc % 4 = 0) ∧
    ((pendingAccess (.write 4 (bytesOfWord 3))).host = [.access (.write 4 (bytesOfWord 3))] ∧
      (3 : Word).getLsbD defaultLayout.ctr.msMode.lo ≠ (pendingAccess (.write 4 (bytesOfWord 3))).params.masterMode) ∧
    (after (.wrCtr 0x33) (ready [0x10] [(0, 0x800)] [.ok] []) (fun _ => true) = false ∧
      ((ready [0x10] [(0, 0x800)] [.ok] []).slot 0).done = false ∧
      ((ready [0x10] [(0, 0x800)] [.ok] []).slot 0).opCode = 1 ∧
      ((ready [0x10] [(0, 0x800)] [.ok] []).slot 0).byteNum = 0) := by decide
theorem witness_PlacedCommandRunsAlone :
    (0x801 < 2 ^ 32 ∧ isMapped 0x801 = false) ∧ (0xFFFFFFFF < 2 ^ 32 ∧ isMapped 0xFFFFFFFF = false) ∧
    State.reset.fault = none ∧ State.reset.params.wf = true ∧ movedState.params.wf = true := by decide
/-- The premise of the statements over every `LAYOUT` (O14, O16 to O18, O20, O21, O31, O32, O42, O52), met by the default
and by another one; a bit of no field, the lowest and the highest. -/
theorem witness_layouts :
    State.reset.params.layout.wf = true ∧ movedState.params.layout.wf = true ∧
    (∀ f ∈ defaultLayout.ctr.fields, 3 < f.lo ∨ f.lo + f.width ≤ 3) ∧
    (∀ f ∈ defaultLayout.ctr.fields, 31 < f.lo ∨ f.lo + f.width ≤ 31) ∧
    (∀ f ∈ defaultLayout.sr.fields, 7 < f.lo ∨ f.lo + f.width ≤ 7) ∧
    (∀ f ∈ defaultLayout.sr.fields, 31 < f.lo ∨ f.lo + f.width ≤ 31) ∧
    (∀ f ∈ defaultLayout.fifoConf.fields, 26 < f.lo ∨ f.lo + f.width ≤ 26) ∧
    (∀ f ∈ defaultLayout.cmd.fields, 14 < f.lo ∨ f.lo + f.width ≤ 14) ∧
    (∀ f ∈ defaultLayout.cmd.fields, 30 < f.lo ∨ f.lo + f.width ≤ 30) := by decide
theorem witness_WriteControlStoresAndTriggers :
    (0x00 : Word).getLsbD defaultLayout.ctr.msMode.lo ≠ State.reset.params.masterMode ∧
    ((0x13 : Word).getLsbD defaultLayout.ctr.msMode.lo = State.reset.params.masterMode ∧ (0x13 : Word).getLsbD defaultLayout.ctr.transStart.lo = false) ∧
    ((0x33 : Word).getLsbD defaultLayout.ctr.msMode.lo = State.reset.params.masterMode ∧ (0x33 : Word).getLsbD defaultLayout.ctr.transStart.lo = true) := by decide
theorem witness_StatusCountsAreExact : FifosBounded State.reset ∧
    FifosBounded { State.reset with txq := fullQueue, rxq := fullQueue } :=
  ⟨⟨by decide, by decide⟩, ⟨by decide, by decide⟩⟩
/-- Each clause: a `CTR` write without and with a pass, and the four other writes, answer a next state. -/
theorem witness_WrittenRegistersReadBack :
    ((0x13 : Word).getLsbD defaultLayout.ctr.msMode.lo = State.reset.params.masterMode ∧ ∃ t, exec (.wrCtr 0x13) State.reset = .next t) ∧
    ((0x33 : Word).getLsbD defaultLayout.ctr.msMode.lo = State.reset.params.masterMode ∧ ∃ t, exec (.wrCtr 0x33) State.reset = .next t) ∧
    (∃ t, exec (.wrFifoConf 0xFFFFFFFF) State.reset = .next t) ∧
    (State.reset.params.srWriteMask = definedBits State.reset.params.layout.sr.stored ∧ ∃ t, exec (.wrSr 0xFFFFFFFF) State.reset = .next t) ∧
    (∃ t, exec (wrCmd 15 0xFFFFFFFF) State.reset = .next t) ∧
    (∃ t, exec (.wrIntEna 0xFFFFFFFF) State.reset = .next t) :=
  ⟨⟨rfl, _, rfl⟩, ⟨rfl, _, rfl⟩, ⟨_, rfl⟩, ⟨by decide, _, rfl⟩, ⟨_, rfl⟩, ⟨_, rfl⟩⟩
theorem witness_WriteDataPushesOrReportsOverflow :
    ({ State.reset with txq := fullQueue } : State).txq.length = 32 ∧
    ({ State.reset with txq := fullQueue.drop 1 } : State).txq.length ≠ 32 := by decide
theorem witness_PushesFillThenOverflow :
    ({ State.reset with txq := fullQueue } : State).txq.length ≤ 32 ∧ State.reset.txq.length ≤ 32 := by decide
theorem witness_ReadDataPopsOldestByte :
    (∃ b q, ({ State.reset with rxq := [0x5A] } : State).rxq = b :: q) ∧ State.reset.rxq = [] := ⟨⟨_, _, rfl⟩, rfl⟩
/-- A full FIFO; one free place with a scripted answer; room and no scripted answer. -/
theorem witness_ReadMovesOneByteOrOverflows :
    ({ State.reset with rxq := fullQueue } : State).rxq.length = 32 ∧
    (({ State.reset with rxq := fullQueue.drop 1, recvAnswers := [7] } : State).rxq.length ≠ 32 ∧
      ({ State.reset with rxq := fullQueue.drop 1, recvAnswers := [7] } : State).recvAnswers = 7 :: []) ∧
    (State.reset.rxq.length ≠ 32 ∧ State.reset.recvAnswers = []) := by decide
/-- Bus BUSY; IDLE with `TXQ` empty; IDLE with a byte and each scripted answer, with a zero and a non-zero count. -/
theorem witness_WriteCommandEffect :
    ({ State.reset with sr := { Sr.atReset with busBusy := true } } : State).sr.busBusy = true ∧
    (State.reset.sr.busBusy = false ∧ State.reset.txq = []) ∧
    (after (.cmdWrite 1 false false false) (ready [0x10] [] [.nack] []) (fun t => t.intRaw == 0x400) = true) ∧
    (after (.cmdWrite 0 false false false) (ready [0x10] [] [.ok] []) (fun _ => true) = false) ∧
    (after (.cmdWrite 1 false false false) (ready [0x10] [] [.ok] []) (fun t => t.intRaw == 0x1200) = true) ∧
    ((ready [0x10] [] [] []).txq = 0x10 :: [] ∧ (ready [0x10] [] [] []).beginAnswers = []) := by decide
theorem witness_VisitSkipsDoneAndRunsPendingSlot :
    (State.reset.slot 15).done = true ∧ ((ready [] [(15, 0x1800)] [] []).slot 15).done = false := by decide

/-- A state with commands of every kind pending, the transport scripted. -/
def busyState : State :=
  { ready [0xA0, 0x00, 0xA1] [(0, 0x802), (1, 0x0000), (2, 0x801), (3, 0x1001), (5, 0x1800), (6, 0x2000), (7, 0x3800)]
      [.ok, .ok] [0x5A] with intEna := 0x88 }

theorem witness_PassFinishesSlotsAndKeepsHostState : ∃ t, enginePass busyState = .next t := ⟨_, rfl⟩
theorem witness_TriggeredPassCompletes :
    (0x33 : Word).getLsbD defaultLayout.ctr.msMode.lo = busyState.params.masterMode ∧ (0x33 : Word).getLsbD defaultLayout.ctr.transStart.lo = true ∧
    (∀ i : Fin 16, (busyState.slot i).done = false → (busyState.slot i).opCode = 1 → (busyState.slot i).byteNum ≠ 0) ∧
    ∃ i : Fin 16, (busyState.slot i).done = false ∧ (busyState.slot i).opCode = 1 := by decide
theorem witness_PassWithNothingPendingChangesNothing :
    (0x33 : Word).getLsbD defaultLayout.ctr.msMode.lo = State.reset.params.masterMode ∧ (0x33 : Word).getLsbD defaultLayout.ctr.transStart.lo = true ∧
    (State.reset.cur = 0 ∧ State.reset.ctr.transStart = false) ∧ ∀ i : Fin 16, (State.reset.slot i).done = true := by
  decide
theorem witness_PassConservesBytes : ∃ t, enginePass busyState = .next t ∧ t.txq = [] ∧ t.rxq = [0x5A] :=
  ⟨_, rfl, by decide, by decide⟩
theorem witness_PassCallsAreBounded : (∃ t, enginePass busyState = .next t) ∧ FifosBounded busyState :=
  ⟨⟨_, rfl⟩, by decide, by decide⟩

/-- The same state with the triggering access pending. -/
def busyAccess : State := { busyState with host := [.access (.write 0x04 (bytesOfWord 0x33))] }

theorem witness_StepKeepsFifosBounded : FifosBounded busyAccess ∧ ∃ t, step busyAccess = .next t :=
  ⟨⟨by decide, by decide⟩, _, rfl⟩
theorem witness_StepKeepsLineEqualToStatus :
    ((busyAccess.irq = true ↔ busyAccess.intSt ≠ 0) ∧ afterStep busyAccess (fun t => t.irq) = true) ∧
    ∃ t, step busyAccess = .next t := ⟨by decide, _, rfl⟩
theorem witness_StepKeepsUnraisedEventsClear :
    busyAccess.params.layout.wf = true ∧
    (∀ e ∈ unraisedEvents, busyAccess.intRaw.getLsbD (eventBit busyAccess.params.layout.events e) = false ∧
      busyAccess.intSt.getLsbD (eventBit busyAccess.params.layout.events e) = false) ∧
    ∃ t, step busyAccess = .next t := ⟨by decide, by decide, _, rfl⟩
/-- A state that meets the invariant and steps, before a pass and before a reset. -/
theorem witness_StepKeepsInvariant :
    (Inv busyAccess ∧ ∃ t, step busyAccess = .next t) ∧
    (Inv { busyAccess with host := [.reset] } ∧ ∃ t, step { busyAccess with host := [.reset] } = .next t) :=
  ⟨⟨⟨⟨by decide, by decide⟩, by unfold LineFollowsStatus; decide, by unfold UnraisedEventsClear; decide,
      by unfold FieldsFit; decide, ⟨by decide, by decide⟩, by decide⟩, _, rfl⟩,
    ⟨⟨⟨by decide, by decide⟩, by unfold LineFollowsStatus; decide, by unfold UnraisedEventsClear; decide,
      by unfold FieldsFit; decide, ⟨by decide, by decide⟩, by decide⟩, _, rfl⟩⟩
theorem witness_OnlyATriggerReachesTheBus :
    (Instr.wrCtr 0x13).isHostAccess = true ∧ (0x13 : Word).getLsbD defaultLayout.ctr.transStart.lo = false ∧ Instr.rdData.isHostAccess = true ∧
    after (.wrCtr 0x13) busyState (fun _ => true) = true ∧ after .rdData busyState (fun _ => true) = true := by decide
theorem witness_StatusAndLineFallOnlyOnClear :
    after (.wrCtr 0x33) { busyState with intSt := 8, irq := true } (fun t => t.irq && t.intSt == 0x88) = true ∧
    after (.wrIntEna 0) { busyState with intSt := 8, irq := true } (fun t => t.irq && t.intSt == 8) = true := by decide
theorem witness_StatusBitsComeOnlyFromEnabledEvents :
    after (.wrCtr 0x33) busyState (fun t => t.intSt == 0x88 && t.intRaw == 0x1288) = true ∧
    after (.cmdEnd 0 false false false) busyState (fun t => t.intSt == 0x08) = true := by decide
theorem witness_RawBitsFallOnlyOnDestructiveRead :
    after (.wrIntClr 0) { busyState with intRaw := 8 } (fun t => t.intRaw == 8) = true ∧
    after (.cmdStop 0 false false false) { busyState with intRaw := 8 } (fun t => t.intRaw == 0x88) = true := by decide
theorem witness_DoneFlagFallsOnlyByWritingTheSlot :
    (State.reset.slot 3).done = true ∧ after (wrCmd 3 0x1800) State.reset (fun t => !(t.slot 3).done) = true := by decide
/-- Both ways: a Status write, and an acknowledged address, in one command and in a pass. -/
theorem witness_BusBecomesBusyOnlyByAcknowledgedAddress :
    State.reset.sr.busBusy = false ∧ after (.wrSr 0x10) State.reset (fun t => t.sr.busBusy) = true ∧
    (ready [0x10] [(0, 0x801)] [.ok] []).sr.busBusy = false ∧
    after (.cmdWrite 1 false false false) (ready [0x10] [(0, 0x801)] [.ok] []) (fun t => t.sr.busBusy) = true ∧
    after (.wrCtr 0x33) (ready [0x10] [(0, 0x801)] [.ok] []) (fun t => t.sr.busBusy) = true := by decide

end Sys2Proof.Tests
end

section
/-! PROOFS. What a chain of engine effects keeps: the host's part of the state, every set bit, the bounds of the FIFOs,
the line, the events that nothing raises; and how the bus becomes busy. -/

namespace Sys2Proof.Machine

/-! ### The engine keeps the host's part of the state and clears no bit (R203) -/

/-- Bits that stay set across two changes stay set across both. -/
theorem bits_kept_trans {w : Nat} {a b c : BitVec w} (hab : a &&& b = a) (hbc : b &&& c = b) : a &&& c = a := by
  calc a &&& c = a &&& b &&& c := by rw [hab]
    _ = a &&& (b &&& c) := BitVec.and_assoc ..
    _ = a := by rw [hbc, hab]

/-- Setting bits keeps the ones that are set. -/
theorem bits_kept_or {w : Nat} (a m : BitVec w) : a &&& (a ||| m) = a := by
  refine BitVec.eq_of_getLsbD_eq fun k _ => ?_
  rw [BitVec.getLsbD_and, BitVec.getLsbD_or]
  cases a.getLsbD k <;> rfl

theorem EngineKeeps.refl (s : State) : EngineKeeps s s where
  params := rfl
  ctr := rfl
  fifoConf := rfl
  intEna := rfl
  fault := rfl
  host := rfl
  slaveRw := rfl
  timeOut := rfl
  arbLost := rfl
  slaveAddressed := rfl
  sclMainStateLast := rfl
  sclStateLast := rfl
  rawBits := BitVec.and_self
  statusBits := BitVec.and_self
  line := id
  byteTrans := id
  slotFields _ := ⟨rfl, rfl, rfl, rfl, fun _ => rfl⟩

theorem EngineKeeps.trans {s t u : State} (a : EngineKeeps s t) (b : EngineKeeps t u) : EngineKeeps s u where
  params := b.params.trans a.params
  ctr := b.ctr.trans a.ctr
  fifoConf := b.fifoConf.trans a.fifoConf
  intEna := b.intEna.trans a.intEna
  fault := b.fault.trans a.fault
  host := b.host.trans a.host
  slaveRw := b.slaveRw.trans a.slaveRw
  timeOut := b.timeOut.trans a.timeOut
  arbLost := b.arbLost.trans a.arbLost
  slaveAddressed := b.slaveAddressed.trans a.slaveAddressed
  sclMainStateLast := b.sclMainStateLast.trans a.sclMainStateLast
  sclStateLast := b.sclStateLast.trans a.sclStateLast
  rawBits := bits_kept_trans a.rawBits b.rawBits
  statusBits := bits_kept_trans a.statusBits b.statusBits
  line := b.line ∘ a.line
  byteTrans := b.byteTrans ∘ a.byteTrans
  slotFields i := by
    obtain ⟨a1, a2, a3, a4, a5⟩ := a.slotFields i
    obtain ⟨b1, b2, b3, b4, b5⟩ := b.slotFields i
    refine ⟨b1.trans a1, b2.trans a2, b3.trans a3, b4.trans a4, fun done => ?_⟩
    rw [b5 (by rw [a5 done, done]), a5 done]

/-- An event changes the interrupt registers, the line and the outputs alone, and clears nothing. -/
theorem afterEvent_engineKeeps (k : Nat) (s : State) : EngineKeeps s (afterEvent k s) :=
  { EngineKeeps.refl s with
    rawBits := bits_kept_or ..
    statusBits := by
      simp only [afterEvent]
      split
      · exact bits_kept_or ..
      · exact BitVec.and_self
    line := fun asserted => by simp [asserted] }

/-- Each effect of the engine keeps what R203 says a pass keeps. -/
theorem EngineStep.engineKeeps {s t : State} (h : EngineStep s t) : EngineKeeps s t := by
  have slotFields := h.slot
  cases h with
  | event e he => exact afterEvent_engineKeeps _ s
  | beginOk b q answers draws v hq idle pending =>
    exact { EngineKeeps.refl s with byteTrans := fun _ => rfl, slotFields := slotFields }
  | send b q hq => exact { EngineKeeps.refl s with byteTrans := fun _ => rfl }
  | finish => exact { EngineKeeps.refl s with slotFields := slotFields }
  | _ => exact { EngineKeeps.refl s with }

/-- A pass, and a command, keep what R203 says. -/
theorem EngineSteps.engineKeeps {s t : State} (h : EngineSteps s t) : EngineKeeps s t :=
  h.lift EngineKeeps.refl (fun _ _ _ => EngineKeeps.trans) fun _ _ => EngineStep.engineKeeps

/-! ### Invariants across an effect -/

/-- An effect takes bytes from `TXQ`, and puts one into `RXQ` only if there is room (R199). -/
theorem EngineStep.fifosBounded {s t : State} (h : EngineStep s t) (hs : FifosBounded s) : FifosBounded t := by
  obtain ⟨htx, hrx⟩ := hs
  have popped : ∀ {b : Byte} {q : List Byte}, s.txq = b :: q → q.length ≤ 32 := fun hq => by
    rw [hq, List.length_cons] at htx
    omega
  cases h with
  | beginOk b q answers draws v hq idle pending => exact ⟨popped hq, hrx⟩
  | beginNack b q answers draws hq => exact ⟨popped hq, hrx⟩
  | send b q hq => exact ⟨popped hq, hrx⟩
  | recv b answers draws room =>
    refine ⟨htx, ?_⟩
    simp only [List.length_append, List.length_singleton]
    omega
  | _ => exact ⟨htx, hrx⟩

/-- A word with one more bit of it set is not 0. -/
theorem or_bit_ne_zero {a : BitVec 16} {k : Nat} (hk : k < 16) : a ||| 1#16 <<< k ≠ 0 := fun h => by
  have := congrArg (BitVec.getLsbD · k) h
  simp [hk] at this

/-- An enabled event sets a status bit and the line, another one neither (R233). -/
theorem afterEvent_lineFollowsStatus (k : Nat) {s : State} (hs : LineFollowsStatus s) :
    LineFollowsStatus (afterEvent k s) := by
  unfold LineFollowsStatus at hs ⊢
  cases hk : s.intEna.getLsbD k with
  | false => simpa [hk] using hs
  | true => simpa [hk] using or_bit_ne_zero (BitVec.lt_of_getLsbD hk)

theorem EngineStep.lineFollowsStatus {s t : State} (h : EngineStep s t) (hs : LineFollowsStatus s) :
    LineFollowsStatus t := by
  cases h with
  | event e he => exact afterEvent_lineFollowsStatus _ hs
  | _ => exact hs

/-- The bits of the events that nothing raises are 0, under a `LAYOUT` that keeps the events' bits apart. -/
def UnraisedClearUnderLayout (s : State) : Prop := s.params.layout.wf = true ∧ UnraisedEventsClear s

/-- An event that the engine raises is none of the events that nothing raises (R232). -/
theorem engineRaises_unraised {e : Event} (h : e ∈ unraisedEvents) : engineRaises e = false := by
  revert e; decide

/-- Raising one event leaves the bits of every other one alone. -/
theorem afterEvent_bit_of_ne {s : State} (wf : s.params.layout.wf = true) {e f : Event} (h : e ≠ f) :
    (afterEvent (s.bitOf e) s).intRaw.getLsbD (s.bitOf f) = s.intRaw.getLsbD (s.bitOf f) ∧
    (afterEvent (s.bitOf e) s).intSt.getLsbD (s.bitOf f) = s.intSt.getLsbD (s.bitOf f) := by
  have apart : s.bitOf e ≠ s.bitOf f := fun he => h (eventBit_injective wf he)
  have clear : (1#16 <<< s.bitOf e).getLsbD (s.bitOf f) = false := by
    simp only [BitVec.getLsbD_shiftLeft, BitVec.getLsbD_one]
    by_cases hlt : s.bitOf f < s.bitOf e
    · simp [hlt]
    · simp [show s.bitOf f - s.bitOf e ≠ 0 by omega]
  refine ⟨by simp [clear], ?_⟩
  rw [afterEvent_intSt]
  split
  · simp [clear]
  · rfl

theorem EngineStep.unraisedClear {s t : State} (h : EngineStep s t) (hs : UnraisedClearUnderLayout s) :
    UnraisedClearUnderLayout t := by
  cases h with
  | event e he =>
    refine ⟨hs.1, fun f hf => ?_⟩
    have ne : e ≠ f := fun h => Bool.noConfusion (he.symm.trans (h ▸ engineRaises_unraised hf))
    obtain ⟨raw, st⟩ := afterEvent_bit_of_ne hs.1 ne
    exact ⟨raw.trans (hs.2 f hf).1, st.trans (hs.2 f hf).2⟩
  | _ => exact hs

/-! ### How the bus becomes busy -/

/-- From `s` to `t` outputs were appended only, and if the bus went from IDLE to BUSY, an acknowledged `Bus.begin` is
among them (R39). -/
def BusyOnlyByAck (s t : State) : Prop :=
  ∃ new, t.out = s.out ++ new ∧
    (s.sr.busBusy = false → t.sr.busBusy = true → ∃ a d, Output.busBegin a d .ok ∈ new)

/-- Where the bus does not change, only the outputs matter. -/
theorem busyOnlyByAck_of_busBusy_eq {s t : State} {new : List Output} (out : t.out = s.out ++ new)
    (same : t.sr.busBusy = s.sr.busBusy) : BusyOnlyByAck s t :=
  ⟨new, out, fun idle busy => by simp [same, idle] at busy⟩

theorem BusyOnlyByAck.refl (s : State) : BusyOnlyByAck s s :=
  busyOnlyByAck_of_busBusy_eq (List.append_nil _).symm rfl

theorem BusyOnlyByAck.trans {s t u : State} (hst : BusyOnlyByAck s t) (htu : BusyOnlyByAck t u) :
    BusyOnlyByAck s u := by
  obtain ⟨new, out, ack⟩ := hst
  obtain ⟨new', out', ack'⟩ := htu
  refine ⟨new ++ new', by rw [out', out, List.append_assoc], fun idle busy => ?_⟩
  cases mid : t.sr.busBusy with
  | true =>
    obtain ⟨a, d, h⟩ := ack idle mid
    exact ⟨a, d, List.mem_append_left _ h⟩
  | false =>
    obtain ⟨a, d, h⟩ := ack' mid busy
    exact ⟨a, d, List.mem_append_right _ h⟩

theorem EngineStep.busyOnlyByAck {s t : State} (h : EngineStep s t) : BusyOnlyByAck s t := by
  cases h with
  | beginOk b q answers draws v hq idle pending =>
    exact ⟨_, rfl, fun _ _ => ⟨addressOf b, directionOf b, List.mem_singleton_self _⟩⟩
  | endTransfer => exact ⟨_, rfl, fun _ busy => nomatch busy⟩
  | finish => exact BusyOnlyByAck.refl s
  | move i => exact BusyOnlyByAck.refl s
  | _ => exact busyOnlyByAck_of_busBusy_eq rfl rfl

theorem EngineSteps.busyOnlyByAck {s t : State} (h : EngineSteps s t) : BusyOnlyByAck s t :=
  h.lift BusyOnlyByAck.refl (fun _ _ _ => BusyOnlyByAck.trans) fun _ _ => EngineStep.busyOnlyByAck

end Sys2Proof.Machine
end

section
/-! PROOFS. What an instruction keeps, by the shapes of effect it can have (`exec_next_cases`). -/

namespace Sys2Proof.Machine

variable {i : Instr} {s t : State}

/-- No instruction changes the parameters (R5). -/
theorem exec_params (h : exec i s = .next t) : t.params = s.params := by
  cases exec_next_cases h with
  | pass v _ u trigger steps rests all => exact steps.engineKeeps.params
  | cmd _ _ _ hi steps cursor done => exact steps.engineKeeps.params
  | _ => rfl

theorem exec_keeps_fifosBounded (h : exec i s = .next t) (hs : FifosBounded s) : FifosBounded t := by
  cases exec_next_cases h with
  | other _ _ f tq rq n new fits fields quiet hi => exact fits hs
  | pass v _ u trigger steps rests all => exact steps.keeps (fun _ _ => EngineStep.fifosBounded) hs
  | cmd _ _ _ hi steps cursor done => exact steps.keeps (fun _ _ => EngineStep.fifosBounded) hs
  | _ => exact hs

theorem exec_keeps_lineFollowsStatus (h : exec i s = .next t) (hs : LineFollowsStatus s) : LineFollowsStatus t := by
  cases exec_next_cases h with
  | wrIntClr v => simp [LineFollowsStatus]
  | pass v _ u trigger steps rests all => exact steps.keeps (fun _ _ => EngineStep.lineFollowsStatus) hs
  | cmd _ _ _ hi steps cursor done => exact steps.keeps (fun _ _ => EngineStep.lineFollowsStatus) hs
  | _ => exact hs

theorem exec_keeps_unraisedClear (h : exec i s = .next t) (hs : UnraisedClearUnderLayout s) :
    UnraisedClearUnderLayout t := by
  cases exec_next_cases h with
  | rdIntRaw => exact ⟨hs.1, fun e he => ⟨BitVec.getLsbD_zero, (hs.2 e he).2⟩⟩
  | wrIntClr v => exact ⟨hs.1, fun e he => ⟨(hs.2 e he).1, BitVec.getLsbD_zero⟩⟩
  | pass v _ u trigger steps rests all => exact steps.keeps (fun _ _ => EngineStep.unraisedClear) hs
  | cmd _ _ _ hi steps cursor done => exact steps.keeps (fun _ _ => EngineStep.unraisedClear) hs
  | _ => exact hs

/-- The fields that `FieldsFit` speaks of are none that the engine writes. -/
theorem EngineKeeps.fieldsFit (h : EngineKeeps s t) (hs : FieldsFit s) : FieldsFit t := by
  unfold FieldsFit
  rw [h.params, h.fifoConf, h.sclMainStateLast, h.sclStateLast]
  exact hs

theorem exec_keeps_fieldsFit (h : exec i s = .next t) (hs : FieldsFit s) : FieldsFit t := by
  cases exec_next_cases h with
  | wrSr v => exact fieldsFit_maskedStatus v hs
  | other _ _ f tq rq n new fits fields quiet hi => exact fields hs
  | pass v _ u trigger steps rests all => exact steps.engineKeeps.fieldsFit hs
  | cmd _ _ _ hi steps cursor done => exact steps.engineKeeps.fieldsFit hs
  | _ => exact hs

/-- Every instruction leaves the cursor at rest and the trigger bit 0 (R33, R131). -/
theorem exec_keeps_betweenPasses (h : exec i s = .next t) (hs : BetweenPasses s) : BetweenPasses t := by
  cases exec_next_cases h with
  | ctr v => exact ⟨hs.1, rfl⟩
  | pass v _ u trigger steps rests all => exact ⟨rests, rfl⟩
  | cmd _ _ _ hi steps cursor done => exact ⟨cursor.trans hs.1, by rw [steps.engineKeeps.ctr]; exact hs.2⟩
  | _ => exact hs

/-- Only the destructive read clears raw bits (R139). -/
theorem exec_intRaw_kept (hi : i ≠ .rdIntRaw) (h : exec i s = .next t) : s.intRaw &&& t.intRaw = s.intRaw := by
  cases exec_next_cases h with
  | rdIntRaw => exact absurd rfl hi
  | pass v _ u trigger steps rests all => exact steps.engineKeeps.rawBits
  | cmd _ _ _ hi steps cursor done => exact steps.engineKeeps.rawBits
  | _ => exact BitVec.and_self

/-- Only the acknowledgment clears status bits and lowers the line (R141). -/
theorem exec_status_and_line_kept (hi : ∀ v, i ≠ .wrIntClr v) (h : exec i s = .next t) :
    s.intSt &&& t.intSt = s.intSt ∧ (s.irq = true → t.irq = true) := by
  cases exec_next_cases h with
  | wrIntClr v => exact absurd rfl (hi v)
  | pass v _ u trigger steps rests all => exact ⟨steps.engineKeeps.statusBits, steps.engineKeeps.line⟩
  | cmd _ _ _ hi steps cursor done => exact ⟨steps.engineKeeps.statusBits, steps.engineKeeps.line⟩
  | _ => exact ⟨BitVec.and_self, id⟩

/-- A done slot that an instruction leaves pending is the one it wrote (R40, R147). -/
theorem exec_pending_of_done {k : Fin 16} (h : exec i s = .next t) (done : (s.slot k).done = true)
    (pending : (t.slot k).done = false) : ∃ v, i = wrCmd k v := by
  suffices kept : (∀ v, i ≠ wrCmd k v) → (t.slot k).done = true by
    by_contra none
    rw [kept fun v hv => none ⟨v, hv⟩] at pending
    cases pending
  intro other
  cases exec_next_cases h with
  | wrSlot j v =>
    have ne : j ≠ k := fun e => other v (by rw [e])
    rw [writeSlot, setSlot_slot_ne _ ne, done]
  | pass v _ u trigger steps rests all => exact all k
  | cmd _ _ _ hi steps cursor finished =>
    by_cases hk : s.cur = k
    · rw [← hk, finished]
    · exact steps.done k (by rw [slot_of_cmd_set (s := s) (t := pendingCur s) rfl, if_neg hk, done])
  | _ => exact done

/-- Every instruction but a Status write lets the bus become busy by an acknowledged address alone (R39). -/
theorem exec_busyOnlyByAck (hi : ∀ v, i ≠ .wrSr v) (h : exec i s = .next t) : BusyOnlyByAck s t := by
  cases exec_next_cases h with
  | wrSr v => exact absurd rfl (hi v)
  | pass v _ u trigger steps rests all => exact steps.busyOnlyByAck
  | cmd _ _ _ hi steps cursor done => exact steps.busyOnlyByAck
  | wrIntEna v => exact BusyOnlyByAck.refl s
  | wrSlot j v => exact BusyOnlyByAck.refl s
  | ctr v => exact BusyOnlyByAck.refl s
  | _ => exact busyOnlyByAck_of_busBusy_eq rfl rfl

end Sys2Proof.Machine
end

section
/-! PROOFS. What a step keeps: an access, a reset, or nothing (`step_next_cases`). -/

namespace Sys2Proof.Machine

/-- A predicate that does not look at the pending events, that the reset operation keeps and every instruction keeps, is
kept by a step. -/
theorem step_keeps {P : State → Prop} (taken : ∀ s rest, P s → P { s with host := rest })
    (reset : ∀ s, P s → P (resetBlock s)) (run : ∀ i s t, exec i s = .next t → P s → P t) {s t : State}
    (h : step s = .next t) (hs : P s) : P t := by
  obtain ⟨-, ⟨-, rfl⟩ | ⟨rest, -, rfl⟩ | ⟨a, rest, i, -, -, hi⟩⟩ := step_next_cases h
  · exact hs
  · exact reset _ (taken s rest hs)
  · exact run i _ t hi (taken s rest hs)

variable {s t : State}

theorem step_params (h : step s = .next t) : t.params = s.params :=
  step_keeps (P := fun u => u.params = s.params) (fun _ _ => id) (fun u hu => by rw [resetBlock_eq]; exact hu)
    (fun _ _ _ hi hu => (exec_params hi).trans hu) h rfl

theorem step_keeps_fifosBounded (h : step s = .next t) : FifosBounded s → FifosBounded t :=
  step_keeps (fun _ _ => id) (fun u _ => by simp [resetBlock_eq, FifosBounded])
    (fun _ _ _ => exec_keeps_fifosBounded) h

/-- The reset operation clears `INT_ST` and lowers the line (R270, D10). -/
theorem step_keeps_lineFollowsStatus (h : step s = .next t) : LineFollowsStatus s → LineFollowsStatus t :=
  step_keeps (fun _ _ => id) (fun u _ => by simp [resetBlock_eq, LineFollowsStatus])
    (fun _ _ _ => exec_keeps_lineFollowsStatus) h

theorem step_keeps_unraisedClear (h : step s = .next t) : UnraisedClearUnderLayout s → UnraisedClearUnderLayout t :=
  step_keeps (fun _ _ => id)
    (fun u hu => by
      rw [resetBlock_eq]
      exact ⟨hu.1, fun _ _ => ⟨BitVec.getLsbD_zero, BitVec.getLsbD_zero⟩⟩)
    (fun _ _ _ => exec_keeps_unraisedClear) h

theorem step_keeps_fieldsFit (h : step s = .next t) : FieldsFit s → FieldsFit t :=
  step_keeps (fun _ _ => id) (fun u _ => fieldsFit_resetBlock u) (fun _ _ _ => exec_keeps_fieldsFit) h

theorem step_keeps_betweenPasses (h : step s = .next t) : BetweenPasses s → BetweenPasses t :=
  step_keeps (fun _ _ => id) (fun u hu => by rw [resetBlock_eq]; exact ⟨hu.1, rfl⟩)
    (fun _ _ _ => exec_keeps_betweenPasses) h

/-- Every invariant of a state between steps is kept by a step. -/
theorem step_keeps_inv (h : step s = .next t) (hs : Inv s) : Inv t where
  fifos := step_keeps_fifosBounded h hs.fifos
  line := step_keeps_lineFollowsStatus h hs.line
  unraised := (step_keeps_unraisedClear h ⟨Params.wf_layout hs.params, hs.unraised⟩).2
  fieldsFit := step_keeps_fieldsFit h hs.fieldsFit
  idle := step_keeps_betweenPasses h hs.idle
  params := by rw [step_params h]; exact hs.params

/-- The reset state meets every invariant. -/
theorem inv_reset : Inv State.reset where
  fifos := ⟨by decide, by decide⟩
  line := by unfold LineFollowsStatus; decide
  unraised := fun _ _ => ⟨BitVec.getLsbD_zero, BitVec.getLsbD_zero⟩
  fieldsFit := by unfold FieldsFit; decide
  idle := ⟨rfl, rfl⟩
  params := by decide

/-- Settles O50, by the two FIFOs across each effect of the engine, each instruction and the reset. -/
theorem stepKeepsFifosBounded : Obligations.StepKeepsFifosBounded := fun _ _ hs h => step_keeps_fifosBounded h hs

/-- Settles O51, by the line and `INT_ST` across each effect of the engine, each instruction and the reset. -/
theorem stepKeepsLineEqualToStatus : Obligations.StepKeepsLineEqualToStatus :=
  fun _ _ hs h => step_keeps_lineFollowsStatus h hs

/-- Settles O53, part by part of the invariant. -/
theorem stepKeepsInvariant : Obligations.StepKeepsInvariant :=
  ⟨inv_reset, fun _ _ hs h => ⟨step_keeps_inv h hs, step_params h⟩⟩

/-- Settles O55, by the effects an instruction can have; the engine clears no status bit (`EngineKeeps`). -/
theorem statusAndLineFallOnlyOnClear : Obligations.StatusAndLineFallOnlyOnClear :=
  fun _ _ _ hi h => exec_status_and_line_kept hi h

/-- Settles O57, by the effects an instruction can have; the engine clears no raw bit (`EngineKeeps`). -/
theorem rawBitsFallOnlyOnDestructiveRead : Obligations.RawBitsFallOnlyOnDestructiveRead :=
  fun _ _ _ hi h => exec_intRaw_kept hi h

/-- Settles O58, by the effects an instruction can have; a command leaves its own slot done. -/
theorem doneFlagFallsOnlyByWritingTheSlot : Obligations.DoneFlagFallsOnlyByWritingTheSlot :=
  fun _ _ _ _ h done pending => exec_pending_of_done h done pending

/-- Settles O59, by the one effect of the engine that makes the bus busy (`EngineStep.beginOk`). -/
theorem busBecomesBusyOnlyByAcknowledgedAddress : Obligations.BusBecomesBusyOnlyByAcknowledgedAddress := by
  intro i s t h idle busy
  by_cases hi : ∃ v, i = .wrSr v
  · exact .inl hi
  · obtain ⟨new, out, ack⟩ := exec_busyOnlyByAck (fun v hv => hi ⟨v, hv⟩) h
    obtain ⟨a, d, mem⟩ := ack idle busy
    exact .inr ⟨new, a, d, out, mem⟩

/-- Settles O10, by evaluating the reset state's registers and by `inv_reset`. -/
theorem resetStateIsAsSpecified : Obligations.ResetStateIsAsSpecified :=
  ⟨by decide, by decide, by decide, rfl, rfl, rfl, by decide, rfl, rfl, rfl, rfl, inv_reset⟩

end Sys2Proof.Machine
end

section
/-! PROOFS. A register read after a write (O21): each register's word after a write, then its read. -/

namespace Sys2Proof

/-! ### One field of a packed word cleared -/

/-- A field that shares no bit with `f` keeps its bits when those of `f` are cleared. -/
theorem BitField.place_clear_of_disjoint {f g : BitField} (h : g.disjoint f = true) (x : Word) :
    g.place x &&& ~~~f.mask = g.place x := by
  simp only [BitField.disjoint, Bool.or_eq_true, decide_eq_true_eq] at h
  refine BitVec.eq_of_getLsbD_eq fun k hk => ?_
  simp only [BitVec.getLsbD_and, BitVec.getLsbD_not, BitField.getLsbD_mask, BitField.getLsbD_place, hk]
  by_cases hg : g.lo ≤ k ∧ k < g.lo + g.width
  · have outside : ¬ (f.lo ≤ k ∧ k < f.lo + f.width) := by omega
    grind
  · grind

/-- A field is empty when its own bits are cleared. -/
theorem BitField.place_clear_self (f : BitField) (x : Word) : f.place x &&& ~~~f.mask = 0 := by
  refine BitVec.eq_of_getLsbD_eq fun k hk => ?_
  simp only [BitVec.getLsbD_and, BitVec.getLsbD_not, BitField.getLsbD_mask, BitField.getLsbD_place, hk]
  grind

theorem BitField.place_zero (f : BitField) : f.place 0#32 = 0#32 := by
  simp [BitField.place]

/-- Clearing the bits of a field that shares none with the packed ones changes nothing. -/
theorem packFields_clear_of_disjoint {l : List (BitField × Word)} {f : BitField}
    (h : ∀ p ∈ l, p.1.disjoint f = true) : packFields l &&& ~~~f.mask = packFields l := by
  induction l with
  | nil => simp [packFields]
  | cons p l ih =>
    obtain ⟨g, x⟩ := p
    have first := BitField.place_clear_of_disjoint (h (g, x) (List.mem_cons_self ..)) x
    rw [packFields, BitVec.and_or_distrib_right, first, ih fun q hq => h q (List.mem_cons_of_mem _ hq)]

/-- Packing 0 in one field of a register is clearing that field's bits. -/
theorem packFields_zero_field (l m : List (BitField × Word)) {f : BitField} (x : Word)
    (ok : fieldsOk ((l ++ (f, x) :: m).map Prod.fst) = true) :
    packFields (l ++ (f, 0) :: m) = packFields (l ++ (f, x) :: m) &&& ~~~f.mask := by
  induction l with
  | nil =>
    simp only [List.nil_append, List.map_cons, fieldsOk, Bool.and_eq_true, List.all_map, List.all_eq_true] at ok
    have rest : packFields m &&& ~~~f.mask = packFields m :=
      packFields_clear_of_disjoint fun p hp => BitField.disjoint_symm ▸ ok.1.2 p hp
    simp [packFields, BitVec.and_or_distrib_right, BitField.place_clear_self, BitField.place_zero, rest]
  | cons p l ih =>
    obtain ⟨g, y⟩ := p
    simp only [List.cons_append, List.map_cons, fieldsOk, Bool.and_eq_true, List.all_eq_true] at ok
    have apart : g.disjoint f = true := ok.1.2 f (by simp)
    rw [List.cons_append, List.cons_append, packFields, packFields, BitVec.and_or_distrib_right,
      BitField.place_clear_of_disjoint apart, ih ok.2]

end Sys2Proof

namespace Sys2Proof.Machine

/-! ### What a register reads as after a write -/

/-- A read of `CTR` returns the stored fields but `trans_start` (R132). -/
theorem Ctr.toWord_ofWord {L : Layout} (h : L.wf = true) (v : Word) :
    (Ctr.ofWord L.ctr v).toWord L.ctr = v &&& definedBits L.ctr.fields &&& ~~~L.ctr.transStart.mask := by
  rw [← Ctr.written_ofWord h]
  exact packFields_zero_field ((Ctr.pairs L.ctr (Ctr.ofWord L.ctr v)).take 4)
    ((Ctr.pairs L.ctr (Ctr.ofWord L.ctr v)).drop 5) _ (Ctr.pairs_ok h (Ctr.ofWord L.ctr v))

/-- Reading `CTR` does not look at the trigger bit (R132). -/
theorem Ctr.toWord_controlFields (L : CtrLayout) (v : Word) :
    (controlFields L v).toWord L = (Ctr.ofWord L v).toWord L := rfl

/-- A `CTR` write of a master value leaves its fields but `trans_start`, with or without a pass (R131). -/
theorem exec_wrCtr_ctr {v : Word} {s t : State} (master : v.getLsbD s.params.layout.ctr.msMode.lo = s.params.masterMode)
    (h : exec (.wrCtr v) s = .next t) : t.ctr = controlFields s.params.layout.ctr v := by
  rcases execWrCtr_next_cases h with ⟨slave, -⟩ | ⟨-, -, rfl⟩ | ⟨-, -, u, hu, rfl⟩
  · exact absurd master slave
  · rfl
  · have kept : u.ctr = Ctr.ofWord s.params.layout.ctr v := (enginePass_steps hu).1.engineKeeps.ctr
    rw [clearTrigger_ctr, kept, ctr_ofWord_cleared]

/-- A `FIFO_CONF` write stores its fields, whichever FIFOs it resets (R135). -/
theorem exec_wrFifoConf_fifoConf {v : Word} {s t : State} (h : exec (.wrFifoConf v) s = .next t) :
    t.fifoConf = FifoConf.ofWord s.params.layout.fifoConf v := by
  simp only [exec, execWrFifoConf] at h
  cases h
  split <;> split <;> rfl

/-- A field of 6 bits holds a FIFO's count. -/
theorem BitField.place_countField {f : BitField} (hf : f.width = 6) (q : List Byte) :
    f.place (countField q) = (BitVec.ofNat 6 q.length).setWidth 32 <<< f.lo := by
  have fits : countField q &&& onesWord 6 = countField q := by
    refine BitVec.eq_of_getLsbD_eq fun k hk => ?_
    rw [BitVec.getLsbD_and, getLsbD_onesWord, countField, BitVec.getLsbD_setWidth]
    by_cases h6 : k < 6
    · simp [hk, h6]
    · simp [BitVec.getLsbD_of_ge _ _ (Nat.le_of_not_lt h6)]
  rw [BitField.place, hf, fits, countField]

/-- `SR` reads as its stored fields and the two counts (R134). -/
theorem statusWord_eq_counts {s : State} (h : s.params.layout.wf = true) :
    statusWord s = s.sr.toWord s.params.layout.sr |||
      (BitVec.ofNat 6 s.rxq.length).setWidth 32 <<< s.params.layout.sr.rxFifoCnt.lo |||
      (BitVec.ofNat 6 s.txq.length).setWidth 32 <<< s.params.layout.sr.txFifoCnt.lo := by
  obtain ⟨-, -, rx, tx⟩ := Layout.wf_sr h
  simp only [statusWord, packFields, BitField.place_countField rx, BitField.place_countField tx, BitVec.or_assoc,
    BitVec.ofNat_eq_ofNat, BitVec.or_zero]

/-- With every stored field writable, a Status write stores the value's fields (R133). -/
theorem maskedStatus_toWord {p : Params} (h : p.layout.wf = true)
    (mask : p.srWriteMask = definedBits p.layout.sr.stored) (v : Word) (r : Sr) :
    (maskedStatus p v r).toWord p.layout.sr = v &&& definedBits p.layout.sr.stored := by
  rw [maskedStatus, Sr.toWord_ofWord h, mask, BitVec.and_or_distrib_right, BitVec.and_assoc, BitVec.and_self]
  simp [BitVec.and_assoc]

/-- The low half of a word as an interrupt register, widened again (R143, R98). -/
theorem wordOfEvents_eventBits (v : Word) : wordOfEvents (eventBits v) = v &&& 0x0000FFFF := by
  refine BitVec.eq_of_toNat_eq ?_
  simp [wordOfEvents, eventBits, Nat.and_two_pow_sub_one_eq_mod v.toNat 16]
  omega

/-! ### What a read returns -/

/-- The read of a register puts out its word and does nothing else (R132, R136, R134, R144). -/
theorem exec_rdCtr (s : State) :
    exec .rdCtr s = .next { s with out := s.out ++ [.reply (s.ctr.toWord s.params.layout.ctr)] } := rfl

theorem exec_rdFifoConf (s : State) :
    exec .rdFifoConf s = .next { s with out := s.out ++ [.reply (s.fifoConf.toWord s.params.layout.fifoConf)] } := rfl

theorem exec_rdSr (s : State) : exec .rdSr s = .next { s with out := s.out ++ [.reply (statusWord s)] } := rfl

theorem exec_rdIntEna (s : State) :
    exec .rdIntEna s = .next { s with out := s.out ++ [.reply (wordOfEvents s.intEna)] } := rfl

/-! ### A read after a write -/

theorem rdIntEna_after_wrIntEna {v : Word} {s t : State} (h : exec (.wrIntEna v) s = .next t) :
    exec .rdIntEna t = .next { t with out := t.out ++ [.reply (v &&& 0x0000FFFF)] } := by
  cases h
  rw [exec_rdIntEna, wordOfEvents_eventBits]

section
variable {v : Word} {s t : State} (wf : s.params.layout.wf = true)
include wf

theorem rdCtr_after_wrCtr (master : v.getLsbD s.params.layout.ctr.msMode.lo = s.params.masterMode)
    (h : exec (.wrCtr v) s = .next t) :
    exec .rdCtr t = .next { t with out := t.out ++
      [.reply (v &&& definedBits s.params.layout.ctr.fields &&& ~~~s.params.layout.ctr.transStart.mask)] } := by
  rw [exec_rdCtr, exec_params h, exec_wrCtr_ctr master h, Ctr.toWord_controlFields, Ctr.toWord_ofWord wf]

theorem rdFifoConf_after_wrFifoConf (h : exec (.wrFifoConf v) s = .next t) :
    exec .rdFifoConf t =
      .next { t with out := t.out ++ [.reply (v &&& definedBits s.params.layout.fifoConf.fields)] } := by
  rw [exec_rdFifoConf, exec_params h, exec_wrFifoConf_fifoConf h, FifoConf.toWord_ofWord wf]

theorem rdSr_after_wrSr (mask : s.params.srWriteMask = definedBits s.params.layout.sr.stored)
    (h : exec (.wrSr v) s = .next t) :
    exec .rdSr t = .next { t with out := t.out ++ [.reply ((v &&& definedBits s.params.layout.sr.stored) |||
      (BitVec.ofNat 6 s.rxq.length).setWidth 32 <<< s.params.layout.sr.rxFifoCnt.lo |||
      (BitVec.ofNat 6 s.txq.length).setWidth 32 <<< s.params.layout.sr.txFifoCnt.lo)] } := by
  have word := statusWord_eq_counts (s := { s with sr := maskedStatus s.params v s.sr }) wf
  rw [maskedStatus_toWord wf mask] at word
  cases h
  rw [exec_rdSr, word]

theorem rdCmd_after_wrCmd {i : Fin 16} (h : exec (wrCmd i v) s = .next t) :
    exec (rdCmd i) t = .next { t with out := t.out ++ [.reply (v &&& definedBits s.params.layout.cmd.fields)] } := by
  rw [exec_wrCmd] at h
  cases h
  rw [exec_rdCmd, readSlot, writeSlot, setSlot_slot_self, setSlot_params, Slot.toWord_ofWrite wf]
  rfl

end

/-- Settles O21, register by register; the masks of the default `LAYOUT` by evaluation. -/
theorem writtenRegistersReadBack : Obligations.WrittenRegistersReadBack := by
  refine ⟨fun v s t wf => ⟨rdCtr_after_wrCtr wf, rdFifoConf_after_wrFifoConf wf, rdSr_after_wrSr wf,
    fun _ => rdCmd_after_wrCmd wf, rdIntEna_after_wrIntEna⟩, ?_⟩
  decide

end Sys2Proof.Machine
end

section
/-! PROOFS. The bytes of a pass: what each engine effect takes from `TXQ` goes to the bus, what it brings from the bus goes
to `RXQ`. -/

namespace Sys2Proof.Machine

/-- The address byte is its address and its direction put together again (R96). -/
@[simp] theorem byteToBus_busBegin (b : Byte) (r : BeginResult) :
    (Output.busBegin (addressOf b) (directionOf b) r).byteToBus = some b := by
  have whole : addressOf b ++ b.extractLsb' 0 1 = b := BitVec.extractLsb'_append_extractLsb'
  have low : b.extractLsb' 0 1 = BitVec.ofBool (b.getLsbD 0) := by
    simp [BitVec.eq_of_getLsbD_eq_iff]
  rw [low] at whole
  simp only [Output.byteToBus, directionOf]
  cases direction : b.getLsbD 0 with
  | false => rw [direction] at whole; exact congrArg some whole
  | true => rw [direction] at whole; exact congrArg some whole

@[simp] theorem byteToBus_diag (k : Diag) : (Output.diag k).byteToBus = none := rfl

/-- From `s` to `t` outputs were appended only, `TXQ` gave the bytes that went to the bus, in order, and `RXQ` took the
bytes that came from it, in order. -/
def BytesConserved (s t : State) : Prop :=
  ∃ new, t.out = s.out ++ new ∧ s.txq = new.filterMap Output.byteToBus ++ t.txq ∧
    t.rxq = s.rxq ++ new.filterMap Output.byteFromBus

theorem BytesConserved.refl (s : State) : BytesConserved s s :=
  ⟨[], by simp, by simp, by simp⟩

theorem BytesConserved.trans {s t u : State} (hst : BytesConserved s t) (htu : BytesConserved t u) :
    BytesConserved s u := by
  obtain ⟨new, out, tx, rx⟩ := hst
  obtain ⟨new', out', tx', rx'⟩ := htu
  exact ⟨new ++ new', by rw [out', out, List.append_assoc],
    by rw [tx, tx', List.filterMap_append, List.append_assoc],
    by rw [rx', rx, List.filterMap_append, List.append_assoc]⟩

/-- Raising an event puts out no byte and leaves both FIFOs. -/
theorem afterEvent_bytesConserved (k : Nat) (s : State) : BytesConserved s (afterEvent k s) := by
  refine ⟨_, rfl, ?_, ?_⟩ <;> split <;> simp [Output.byteToBus, Output.byteFromBus]

/-- Each effect of the engine conserves bytes: only an address phase and a send take one from `TXQ` (R172), only a receive
gives one to `RXQ` (R173). -/
theorem EngineStep.bytesConserved {s t : State} (h : EngineStep s t) : BytesConserved s t := by
  cases h with
  | event e he => exact afterEvent_bytesConserved _ s
  | endTransfer => exact ⟨_, rfl, rfl, (List.append_nil _).symm⟩
  | beginOk b q answers draws v hq idle pending =>
    exact ⟨_, rfl, by simp [hq], (List.append_nil _).symm⟩
  | beginNack b q answers draws hq =>
    exact ⟨_, rfl, by simp [hq], (List.append_nil _).symm⟩
  | send b q hq => exact ⟨_, rfl, hq, (List.append_nil _).symm⟩
  | recv b answers draws room => exact ⟨_, rfl, rfl, rfl⟩
  | finish => exact BytesConserved.refl s
  | move i => exact BytesConserved.refl s

theorem EngineSteps.bytesConserved {s t : State} (h : EngineSteps s t) : BytesConserved s t :=
  h.lift BytesConserved.refl (fun _ _ _ => BytesConserved.trans) fun _ _ => EngineStep.bytesConserved

/-- Settles O47, by the bytes of each engine effect, a pass being a chain of them. -/
theorem passConservesBytes : Obligations.PassConservesBytes :=
  fun _ _ h => (enginePass_steps h).1.bytesConserved

end Sys2Proof.Machine
end

section
/-! PROOFS. What a read changes (R68). -/

namespace Sys2Proof.Machine

/-- A read of `DATA` takes the oldest byte of `RXQ` if there is one; else it reports the underflow and draws a value
(R174). -/
theorem rxPopHost_cases (s : State) :
    (∃ b q, s.rxq = b :: q ∧
      rxPopHost s = { s with rxq := q, out := s.out ++ [.reply (wordOfByte b)] }) ∨
    (s.rxq = [] ∧ rxPopHost s = { s with
      draws := s.draws + 1, out := s.out ++ [.diag .rxFifoUnderflow, .reply (Config.rxEmptyRead s.draws)] }) := by
  unfold rxPopHost
  split
  · next hq => exact .inr ⟨hq, by simp [emit]⟩
  · next b q hq => exact .inl ⟨b, q, hq, rfl⟩

/-- A plain register read puts out one reply and changes nothing else. -/
theorem exec_plainRead (s : State) :
    ∀ i ∈ [Instr.rdCtr, .rdSr, .rdFifoConf, .rdIntClr, .rdIntEna, .rdIntSt],
      ∃ w, exec i s = .next (reply w s) := by
  simp only [List.forall_mem_cons]
  exact ⟨⟨_, rfl⟩, ⟨_, rfl⟩, ⟨_, rfl⟩, ⟨_, rfl⟩, ⟨_, rfl⟩, ⟨_, rfl⟩, nofun⟩

/-- A read of an unknown offset reports it and returns 0 (R149). -/
theorem exec_rdUnknown (off : Nat) (s : State) : exec (.rdUnknown off) s =
    .next { s with out := s.out ++ [.diag (.unknownOffsetRead off), .reply 0] } := by
  simp [exec, execRdUnknown, emit]

/-- A read of `DATA` changes `RXQ`, the draw counter and the outputs alone, and calls no transport. -/
theorem exec_rdData_frame (s : State) : ∃ q n new, List.filter Output.isBusCall new = [] ∧
    exec .rdData s = .next { s with rxq := q, draws := n, out := s.out ++ new } := by
  rcases rxPopHost_cases s with ⟨b, q, -, popped⟩ | ⟨-, empty⟩
  · exact ⟨q, s.draws, _, rfl, congrArg Host.Outcome.next popped⟩
  · exact ⟨s.rxq, _, _, rfl, congrArg Host.Outcome.next empty⟩

/-- Settles O60, register by register; the sixteen slots as one (`exec_rdCmd`), `DATA` by whether `RXQ` is empty. -/
theorem plainReadsHaveNoSideEffect : Obligations.PlainReadsHaveNoSideEffect := by
  intro s
  refine ⟨fun i hi => ?_, (exec_rdUnknown · s), ⟨_, rfl⟩, exec_rdData_frame s⟩
  rcases List.mem_append.mp hi with register | slot
  · exact exec_plainRead s i register
  · obtain ⟨k, -, rfl⟩ := List.mem_map.mp slot
    exact ⟨_, exec_rdCmd k s⟩

end Sys2Proof.Machine
end

section
/-! PROOFS. The register map, the bytes of a register on the wire, and the accesses that are refused. -/

namespace Sys2Proof

/-! ### The register map (R62) -/

/-- The row of slot `i` holds the two operations of the slot. -/
theorem rowAt_slot (i : Fin 16) :
    rowAt (0x58 + 4 * i.val) = some ⟨0x58 + 4 * i.val, Machine.rdCmd i, Machine.wrCmd i⟩ := by
  fin_cases i <;> rfl

theorem readInstr_slot (i : Fin 16) : readInstr (0x58 + 4 * i.val) = Machine.rdCmd i := by
  rw [readInstr, rowAt_slot]

theorem writeInstr_slot (i : Fin 16) (v : Word) : writeInstr (0x58 + 4 * i.val) v = Machine.wrCmd i v := by
  rw [writeInstr, rowAt_slot]

/-- Settles O4: the eight registers by looking up their rows, the sixteen slots by `rowAt_slot`. -/
theorem registerMapSelectsOperations : Obligations.RegisterMapSelectsOperations := fun v =>
  ⟨⟨rfl, rfl⟩, ⟨rfl, rfl⟩, ⟨rfl, rfl⟩, ⟨rfl, rfl⟩, ⟨rfl, rfl⟩, ⟨rfl, rfl⟩, ⟨rfl, rfl⟩, ⟨rfl, rfl⟩,
    fun i => ⟨readInstr_slot i, writeInstr_slot i v⟩⟩

/-! ### Byte order (R65, R66) -/

/-- The four bytes of an appended value, lowest first. -/
theorem extractLsb'_of_append (b0 b1 b2 b3 : Byte) :
    (b3 ++ b2 ++ b1 ++ b0).extractLsb' 0 8 = b0 ∧ (b3 ++ b2 ++ b1 ++ b0).extractLsb' 8 8 = b1 ∧
    (b3 ++ b2 ++ b1 ++ b0).extractLsb' 16 8 = b2 ∧ (b3 ++ b2 ++ b1 ++ b0).extractLsb' 24 8 = b3 := by
  refine ⟨BitVec.extractLsb'_append_eq_right, ?_, ?_, ?_⟩
  · rw [BitVec.extractLsb'_append_eq_of_le (by decide)]
    exact BitVec.extractLsb'_append_eq_right
  · rw [BitVec.extractLsb'_append_eq_of_le (by decide), BitVec.extractLsb'_append_eq_of_le (by decide)]
    exact BitVec.extractLsb'_append_eq_right
  · rw [BitVec.extractLsb'_append_eq_of_le (by decide), BitVec.extractLsb'_append_eq_of_le (by decide)]
    exact BitVec.extractLsb'_append_eq_left

/-- A list of bytes makes a register value only if it has four of them. -/
theorem wordOfBytes_eq_none {data : List Byte} (h : data.length ≠ 4) : wordOfBytes data = none := by
  unfold wordOfBytes
  split
  · exact absurd rfl h
  · rfl

/-- Settles O5, by `wordOfBytes_bytesOfWord` one way and `extractLsb'_of_append` the other. -/
theorem registerBytesAreLittleEndian : Obligations.RegisterBytesAreLittleEndian :=
  ⟨fun v => ⟨rfl, wordOfBytes_bytesOfWord v⟩, fun b0 b1 b2 b3 => ⟨_, rfl, extractLsb'_of_append b0 b1 b2 b3⟩,
    fun _ => wordOfBytes_eq_none⟩

/-! ### Refused accesses (R63, R66, R92) -/

theorem checkOffset_misaligned (window : Nat) {off : Nat} (h : off % 4 ≠ 0) :
    checkOffset window off = .error .misaligned := if_pos h

theorem checkOffset_outside {window off : Nat} (aligned : off % 4 = 0) (outside : window ≤ off) :
    checkOffset window off = .error .outsideWindow := by
  simp [checkOffset, aligned, outside]

theorem decodeAccess_read_badWidth (window off : Nat) {width : Nat} (h : width ≠ 4) :
    decodeAccess window (.read off width) = .error .badWidth := if_pos h

theorem decodeAccess_write_badWidth (window off : Nat) {data : List Byte} (h : data.length ≠ 4) :
    decodeAccess window (.write off data) = .error .badWidth := by
  rw [decodeAccess, wordOfBytes_eq_none h]

/-- A 4-byte access whose offset the check refuses is refused for that reason. -/
theorem decodeAccess_of_checkOffset_error {window off : Nat} {e : DecodeError} (h : checkOffset window off = .error e)
    (v : Word) : decodeAccess window (.read off 4) = .error e ∧
      decodeAccess window (.write off (bytesOfWord v)) = .error e := by
  simp [decodeAccess, wordOfBytes_bytesOfWord, h, Except.map]

end Sys2Proof

namespace Sys2Proof.Machine

/-- An access that the decoder refuses is refused by the step, under the decoder's name. -/
theorem step_refused_of_decodeAccess_error {s : State} {a : Access} {rest : List HostEvent} {e : DecodeError}
    (unfaulted : s.fault = none) (oldest : s.host = .access a :: rest)
    (h : decodeAccess s.params.windowBytes a = .error e) : step s = .refused (refusalOf e) := by
  simp [step, serveHost, serveAccess, decode, unfaulted, oldest, h]

/-- A step on a 4-byte access whose offset the check refuses. -/
theorem step_refused_of_checkOffset_error {s : State} {off : Nat} {v : Word} {rest : List HostEvent} {e : DecodeError}
    (unfaulted : s.fault = none)
    (oldest : s.host = .access (.read off 4) :: rest ∨ s.host = .access (.write off (bytesOfWord v)) :: rest)
    (h : checkOffset s.params.windowBytes off = .error e) : step s = .refused (refusalOf e) := by
  obtain ⟨read, write⟩ := decodeAccess_of_checkOffset_error h v
  rcases oldest with oldest | oldest
  · exact step_refused_of_decodeAccess_error unfaulted oldest read
  · exact step_refused_of_decodeAccess_error unfaulted oldest write

/-- Settles O8, check by check of the decoder. -/
theorem stepRefusesInadmissibleAccess : Obligations.StepRefusesInadmissibleAccess := by
  intro s rest off width data v unfaulted
  refine ⟨fun oldest bad => ?_, fun oldest bad => ?_, fun oldest => ⟨fun bad => ?_, fun aligned outside => ?_⟩⟩
  · exact step_refused_of_decodeAccess_error unfaulted oldest (decodeAccess_read_badWidth _ _ bad)
  · exact step_refused_of_decodeAccess_error unfaulted oldest (decodeAccess_write_badWidth _ _ bad)
  · exact step_refused_of_checkOffset_error unfaulted oldest (checkOffset_misaligned _ bad)
  · exact step_refused_of_checkOffset_error unfaulted oldest (checkOffset_outside aligned outside)

end Sys2Proof.Machine
end

section
/-! PROOFS. The round trips between instructions and their encodings, the admitted accesses, and the step that runs one. -/

namespace Sys2Proof.Laws.Encoding

/-! ### Decoding an encoding (R91, R93, R101) -/

/-- The round trip of every instruction: the access of its offset, or the command word of its opcode. -/
theorem roundTrip : ∀ i : Instr, Statement i
  | .rdCtr => rdCtr
  | .wrCtr v => wrCtr v
  | .rdSr => rdSr
  | .wrSr v => wrSr v
  | .rdFifoConf => rdFifoConf
  | .wrFifoConf v => wrFifoConf v
  | .rdData => rdData
  | .wrData v => wrData v
  | .rdIntRaw => rdIntRaw
  | .wrIntRaw v => wrIntRaw v
  | .rdIntClr => rdIntClr
  | .wrIntClr v => wrIntClr v
  | .rdIntEna => rdIntEna
  | .wrIntEna v => wrIntEna v
  | .rdIntSt => rdIntSt
  | .wrIntSt v => wrIntSt v
  | .rdCmd0 => rdCmd0
  | .wrCmd0 v => wrCmd0 v
  | .rdCmd1 => rdCmd1
  | .wrCmd1 v => wrCmd1 v
  | .rdCmd2 => rdCmd2
  | .wrCmd2 v => wrCmd2 v
  | .rdCmd3 => rdCmd3
  | .wrCmd3 v => wrCmd3 v
  | .rdCmd4 => rdCmd4
  | .wrCmd4 v => wrCmd4 v
  | .rdCmd5 => rdCmd5
  | .wrCmd5 v => wrCmd5 v
  | .rdCmd6 => rdCmd6
  | .wrCmd6 v => wrCmd6 v
  | .rdCmd7 => rdCmd7
  | .wrCmd7 v => wrCmd7 v
  | .rdCmd8 => rdCmd8
  | .wrCmd8 v => wrCmd8 v
  | .rdCmd9 => rdCmd9
  | .wrCmd9 v => wrCmd9 v
  | .rdCmd10 => rdCmd10
  | .wrCmd10 v => wrCmd10 v
  | .rdCmd11 => rdCmd11
  | .wrCmd11 v => wrCmd11 v
  | .rdCmd12 => rdCmd12
  | .wrCmd12 v => wrCmd12 v
  | .rdCmd13 => rdCmd13
  | .wrCmd13 v => wrCmd13 v
  | .rdCmd14 => rdCmd14
  | .wrCmd14 v => wrCmd14 v
  | .rdCmd15 => rdCmd15
  | .wrCmd15 v => wrCmd15 v
  | .rdUnknown off => rdUnknown off
  | .wrUnknown off v => wrUnknown off v
  | .cmdRestart n en ex av => cmdRestart n en ex av
  | .cmdWrite n en ex av => cmdWrite n en ex av
  | .cmdRead n en ex av => cmdRead n en ex av
  | .cmdStop n en ex av => cmdStop n en ex av
  | .cmdEnd n en ex av => cmdEnd n en ex av
  | .cmdUnknown5 n en ex av => cmdUnknown5 n en ex av
  | .cmdUnknown6 n en ex av => cmdUnknown6 n en ex av
  | .cmdUnknown7 n en ex av => cmdUnknown7 n en ex av

/-- Settles O1, by the round trip of each constructor. -/
theorem decodeOfEncodeIsIdentity : Obligations.DecodeOfEncodeIsIdentity := fun p i hp hi => roundTrip i p hp hi

end Sys2Proof.Laws.Encoding

namespace Sys2Proof

/-! ### Encoding a decoded command word (R93, R94) -/

/-- Encoding the command of a word keeps the bits of the five fields and no other. -/
theorem encode_decodeCommand {L : Layout} (h : L.wf = true) (w : Word) :
    encode L.cmd (decodeCommand L.cmd w) = .cmd (w &&& definedBits L.cmd.fields) := by
  rw [decodeCommand, encode_commandOf, commandWord_of_fields h]

/-- The five fields of the default `LAYOUT` fill bits 13:0. -/
theorem definedBits_defaultCmdLayout : definedBits defaultLayout.cmd.fields = 0x00003FFF := by decide

/-- Settles O2, by the opcode's own encoding (`encode_commandOf`) and the fields packed again (`commandWord_of_fields`). -/
theorem commandWordsAgreeUpToUnspecifiedBits : Obligations.CommandWordsAgreeUpToUnspecifiedBits := by
  refine ⟨fun L w h => encode_decodeCommand h w, fun w => ?_⟩
  rw [encode_decodeCommand (by decide) w, definedBits_defaultCmdLayout]

/-- Settles O6: the example words and address bytes are closed, and evaluate to what R105 and R96 say. -/
theorem specExampleWordsDecode : Obligations.SpecExampleWordsDecode := by
  unfold Obligations.SpecExampleWordsDecode
  decide

/-! ### Admitted accesses (R92, R101) -/

section
variable {window off : Nat}

/-- A 4-byte access that passes the check decodes to the operation of its offset; no parameter but the window is looked
at. -/
theorem decodeAccess_of_admitted (aligned : off % 4 = 0) (inside : off < window) (v : Word) :
    decodeAccess window (.read off 4) = .ok (readInstr off) ∧
      decodeAccess window (.write off (bytesOfWord v)) = .ok (writeInstr off v) :=
  ⟨decode_readAt (p := { defaultParams with windowBytes := window }) aligned inside,
    decode_writeAt (p := { defaultParams with windowBytes := window }) v aligned inside⟩

theorem readInstr_of_unmapped (h : isMapped off = false) : readInstr off = .rdUnknown off := by
  rw [readInstr, rowAt_of_unmapped h]

theorem writeInstr_of_unmapped (h : isMapped off = false) (v : Word) : writeInstr off v = .wrUnknown off v := by
  rw [writeInstr, rowAt_of_unmapped h]

end

/-- Settles O3: the check passes, and an offset outside the map has no row. -/
theorem alignedOffsetsInWindowAreServed : Obligations.AlignedOffsetsInWindowAreServed := by
  intro window off v aligned inside
  obtain ⟨read, write⟩ := decodeAccess_of_admitted aligned inside v
  refine ⟨⟨_, read⟩, ⟨_, write⟩, fun unmapped => ⟨?_, ?_⟩⟩
  · rw [read, readInstr_of_unmapped unmapped]
  · rw [write, writeInstr_of_unmapped unmapped]

end Sys2Proof

namespace Sys2Proof.Machine

/-! ### The step on an access, and the idle step (R92, R130) -/

/-- Without a fault mark the oldest access is served, and taken from the pending events. -/
theorem step_of_access {s : State} {a : Access} {rest : List HostEvent} (unfaulted : s.fault = none)
    (oldest : s.host = .access a :: rest) : step s = serveAccess a { s with host := rest } := by
  simp only [step, serveHost, unfaulted, oldest]

/-- Serving an access runs the instruction it decodes to. -/
theorem serveAccess_of_decode {s : State} {a : Access} {i : Instr} (h : decode s.params (.mmio a) = .ok i) :
    serveAccess a s = exec i s := by
  simp only [serveAccess, h]

theorem step_of_idle {s : State} (unfaulted : s.fault = none) (idle : s.host = []) : step s = .next s := by
  simp only [step, serveHost, unfaulted, idle]

/-- Settles O7: the oldest access is served (`step_of_access`), and without one the step is idle. -/
theorem stepRunsDecodedAccess : Obligations.StepRunsDecodedAccess := by
  refine ⟨fun s a rest i unfaulted oldest decoded => ?_, fun s => step_of_idle⟩
  exact (step_of_access unfaulted oldest).trans (serveAccess_of_decode decoded)

end Sys2Proof.Machine
end

section
/-! PROOFS. WRITE and a visit case by case. The engine does not look at `CTR` or `FIFO_CONF` (R203): each of its
operations gives the same outcome when those two registers are changed first and when they are changed afterwards. -/

namespace Sys2Proof.Machine

/-! ### The body of WRITE, case by case (R196) -/

section
variable {n : BitVec 8} {en ex : Bool} {s u : State} {b : Byte} {q : List Byte}

theorem writeBody_busy (busy : s.sr.busBusy = true) : writeBody n en ex s = .next (dataPhase n.toNat s) := if_pos busy

theorem writeBody_empty (idle : s.sr.busBusy = false) (empty : s.txq = []) :
    writeBody n en ex s = .next (raiseIrq .txFifoEmpty s) := by
  simp [writeBody, idle, txPop_nil empty]

theorem writeBody_nack (idle : s.sr.busBusy = false) (first : s.txq = b :: q)
    (answer : busBegin (addressOf b) (directionOf b) { s with txq := q } = (.nack, u)) :
    writeBody n en ex s = .next (addressNack (addressOf b) u) := by
  simp [writeBody, idle, txPop_cons first, answer]

theorem writeBody_ok (idle : s.sr.busBusy = false) (first : s.txq = b :: q)
    (answer : busBegin (addressOf b) (directionOf b) { s with txq := q } = (.ok, u)) :
    writeBody n en ex s = if n = 0 then .refused .writeCountUnderflow
      else .next (dataPhase (n.toNat - 1) (addressOk en ex u)) := by
  simp [writeBody, idle, txPop_cons first, answer]

end

/-! ### A visit, case by case (R191) -/

theorem visitSlot_done {i : Fin 16} {s : State} (h : (s.slot i).done = true) :
    visitSlot i s = .next { s with cur := i } := if_pos h

theorem visitSlot_pending {i : Fin 16} {s : State} (h : (s.slot i).done = false) :
    visitSlot i s = runCommand (s.slot i) { s with cur := i } := if_neg (ne_true_of_eq_false h)

/-! ### Changing `CTR` and `FIFO_CONF` -/

/-- The state with `CTR` and `FIFO_CONF` changed, and nothing else. -/
def reconfigure (c : Ctr → Ctr) (f : FifoConf → FifoConf) (s : State) : State :=
  { s with ctr := c s.ctr, fifoConf := f s.fifoConf }

section
variable (c : Ctr → Ctr) (f : FifoConf → FifoConf) (s : State)

theorem raiseIrq_reconfigure (e : Event) : raiseIrq e (reconfigure c f s) = reconfigure c f (raiseIrq e s) := by
  rw [raiseIrq_eq, raiseIrq_eq]; rfl

theorem afterSends_reconfigure (r : Nat) : afterSends r (reconfigure c f s) = reconfigure c f (afterSends r s) := by
  by_cases short : s.txq.length < r
  · simp only [afterSends, reconfigure, short, if_true]; rfl
  · simp only [afterSends, reconfigure, short, if_false]

theorem dataPhase_reconfigure (r : Nat) : dataPhase r (reconfigure c f s) = reconfigure c f (dataPhase r s) := by
  rw [dataPhase_eq, dataPhase_eq, afterSends_reconfigure]; rfl

theorem busBegin_reconfigure (a : BitVec 7) (d : Direction) :
    busBegin a d (reconfigure c f s) = ((busBegin a d s).1, reconfigure c f (busBegin a d s).2) := by
  unfold busBegin; simp only [reconfigure]; cases s.beginAnswers <;> rfl

theorem busRecv_reconfigure : busRecv (reconfigure c f s) = ((busRecv s).1, reconfigure c f (busRecv s).2) := by
  unfold busRecv; simp only [reconfigure]; cases s.recvAnswers <;> rfl

theorem addressNack_reconfigure (a : BitVec 7) :
    addressNack a (reconfigure c f s) = reconfigure c f (addressNack a s) :=
  raiseIrq_reconfigure c f (emitDiag (.noAck a) (setAckRec false s)) .ackErr

theorem addressOk_reconfigure (en ex : Bool) :
    addressOk en ex (reconfigure c f s) = reconfigure c f (addressOk en ex s) :=
  raiseIrq_reconfigure c f (setAckVal en ex (setByteTrans (setAckRec true (setBusBusy true s)))) .transStart

theorem readBody_reconfigure : readBody (reconfigure c f s) = reconfigure c f (readBody s) := by
  have pushed : ∀ b u, rxPush b (reconfigure c f u) = reconfigure c f (rxPush b u) := fun _ _ => rfl
  have rxq : ∀ u, (reconfigure c f u).rxq = u.rxq := fun _ => rfl
  simp only [readBody, busRecv_reconfigure, pushed, rxq, apply_ite (reconfigure c f), raiseIrq_reconfigure]

end

/-! ### Operations that ignore them -/

/-- An operation that gives the same outcome whatever `CTR` and `FIFO_CONF` hold, and leaves both alone. -/
def IgnoresConfig (op : State → Result) : Prop :=
  ∀ c f s, op (reconfigure c f s) = andThen (op s) fun t => .next (reconfigure c f t)

/-- An operation that cannot stop ignores the two registers if it commutes with changing them. -/
theorem ignoresConfig_next {g : State → State} (h : ∀ c f s, g (reconfigure c f s) = reconfigure c f (g s)) :
    IgnoresConfig fun s => .next (g s) :=
  fun c f s => congrArg Host.Outcome.next (h c f s)

theorem IgnoresConfig.andThen {a b : State → Result} (ha : IgnoresConfig a) (hb : IgnoresConfig b) :
    IgnoresConfig fun s => Machine.andThen (a s) b := by
  intro c f s
  simp only [ha c f s, andThen_assoc]
  exact congrArg _ (funext (hb c f))

theorem markDone_ignoresConfig {g : State → State} (h : ∀ c f s, g (reconfigure c f s) = reconfigure c f (g s)) :
    IgnoresConfig fun s => .next (markDone (g s)) :=
  ignoresConfig_next fun c f s => congrArg markDone (h c f s)

/-- WRITE looks at the bus flag, `TXQ`, the transport and its own operands (R196). -/
theorem writeBody_ignoresConfig (n : BitVec 8) (en ex : Bool) : IgnoresConfig (writeBody n en ex) := by
  intro c f s
  cases bus : s.sr.busBusy with
  | true => rw [writeBody_busy bus, writeBody_busy (by exact bus), dataPhase_reconfigure]; rfl
  | false =>
    cases hq : s.txq with
    | nil => rw [writeBody_empty bus hq, writeBody_empty (by exact bus) (by exact hq), raiseIrq_reconfigure]; rfl
    | cons b q =>
      have answer' := busBegin_reconfigure c f { s with txq := q } (addressOf b) (directionOf b)
      rcases answer : busBegin (addressOf b) (directionOf b) { s with txq := q } with ⟨r, u⟩
      rw [answer] at answer'
      cases r with
      | nack =>
        rw [writeBody_nack bus hq answer, writeBody_nack (by exact bus) (by exact hq) answer', addressNack_reconfigure]
        rfl
      | ok =>
        rw [writeBody_ok bus hq answer, writeBody_ok (by exact bus) (by exact hq) answer', addressOk_reconfigure,
          dataPhase_reconfigure]
        split <;> rfl

theorem runCommand_ignoresConfig (slot : Slot) : IgnoresConfig (runCommand slot) := by
  unfold runCommand
  split
  · exact markDone_ignoresConfig fun _ _ _ => rfl
  · exact (writeBody_ignoresConfig _ _ _).andThen (ignoresConfig_next fun _ _ _ => rfl)
  · exact markDone_ignoresConfig readBody_reconfigure
  · exact markDone_ignoresConfig fun c f s => raiseIrq_reconfigure c f (busEnd (setBusBusy false s)) .transComplete
  · exact markDone_ignoresConfig fun c f s => raiseIrq_reconfigure c f s .endDetect
  all_goals exact markDone_ignoresConfig fun _ _ _ => rfl

theorem visitSlot_ignoresConfig (i : Fin 16) : IgnoresConfig (visitSlot i) := by
  intro c f s
  cases h : (s.slot i).done with
  | true => rw [visitSlot_done h, visitSlot_done (by exact h)]; rfl
  | false =>
    rw [visitSlot_pending h, visitSlot_pending (by exact h)]
    exact runCommand_ignoresConfig (s.slot i) c f { s with cur := i }

theorem passFrom_ignoresConfig (l : List (Fin 16)) : IgnoresConfig (passFrom l) := by
  induction l with
  | nil => exact ignoresConfig_next fun _ _ _ => rfl
  | cons i l ih => exact (visitSlot_ignoresConfig i).andThen ih

/-- A pass gives the same outcome whatever `CTR` and `FIFO_CONF` hold, and leaves both alone (R203). -/
theorem enginePass_ignoresConfig : IgnoresConfig enginePass :=
  (passFrom_ignoresConfig slotOrder).andThen (ignoresConfig_next fun _ _ _ => rfl)

end Sys2Proof.Machine
end

section
/-! PROOFS. The host's `CTR` write (R131): a slave value, a plain store, and the pass it triggers. -/

namespace Sys2Proof.Machine

/-! ### A `CTR` write, case by case -/

section
variable {v : Word} {s : State}

/-- A slave value enters the fault state (R246). -/
theorem exec_wrCtr_slave (slave : v.getLsbD s.params.layout.ctr.msMode.lo ≠ s.params.masterMode) :
    exec (.wrCtr v) s =
      .next { s with fault := some .slaveModeSelected, out := s.out ++ [.diag .slaveModeRequest] } :=
  if_pos (bne_iff_ne.mpr slave)

/-- A master value is stored, and the engine runs if the start bit is 1. -/
theorem exec_wrCtr_master (master : v.getLsbD s.params.layout.ctr.msMode.lo = s.params.masterMode) :
    exec (.wrCtr v) s = andThen
      (if v.getLsbD s.params.layout.ctr.transStart.lo then
        enginePass { s with ctr := Ctr.ofWord s.params.layout.ctr v }
      else .next { s with ctr := Ctr.ofWord s.params.layout.ctr v }) fun t => .next (clearTrigger t) :=
  if_neg (by simp [selectsSlave, BitField.bit, master])

/-- Without the start bit the fields are stored and nothing else happens. -/
theorem exec_wrCtr_store (master : v.getLsbD s.params.layout.ctr.msMode.lo = s.params.masterMode)
    (start : v.getLsbD s.params.layout.ctr.transStart.lo = false) :
    exec (.wrCtr v) s = .next { s with ctr := controlFields s.params.layout.ctr v } := by
  rw [exec_wrCtr_master master, start]; rfl

/-- With the start bit a pass runs. The engine does not look at `CTR`, so the fields may as well be stored after it. -/
theorem exec_wrCtr_trigger (master : v.getLsbD s.params.layout.ctr.msMode.lo = s.params.masterMode)
    (start : v.getLsbD s.params.layout.ctr.transStart.lo = true) :
    exec (.wrCtr v) s =
      andThen (enginePass s) fun t => .next { t with ctr := controlFields s.params.layout.ctr v } := by
  have pass := enginePass_ignoresConfig (fun _ => Ctr.ofWord s.params.layout.ctr v) id s
  rw [exec_wrCtr_master master, if_pos start]
  calc andThen (enginePass { s with ctr := Ctr.ofWord s.params.layout.ctr v }) (fun t => .next (clearTrigger t))
    _ = andThen (andThen (enginePass s) fun t => .next (reconfigure (fun _ => Ctr.ofWord s.params.layout.ctr v) id t))
          fun t => .next (clearTrigger t) := congrArg (andThen · _) pass
    _ = _ := andThen_assoc ..

end

/-- Settles O15, by the three cases of the write; the third rests on a pass not looking at `CTR`
(`enginePass_ignoresConfig`). -/
theorem writeControlStoresAndTriggers : Obligations.WriteControlStoresAndTriggers := fun _ _ =>
  ⟨exec_wrCtr_slave, exec_wrCtr_store, exec_wrCtr_trigger⟩

/-! ### When a pass is refused (R198) -/

/-- A slot that is pending with a WRITE of no bytes. -/
def Slot.IsZeroCountWrite (c : Slot) : Prop := c.done = false ∧ c.opCode = 1 ∧ c.byteNum = 0

/-- A slot that is a zero-count WRITE after engine effects was one before: they leave its opcode and its count alone and
clear no done flag (R203). -/
theorem EngineSteps.zeroCountWrite {s t : State} (h : EngineSteps s t) {i : Fin 16}
    (zero : (t.slot i).IsZeroCountWrite) : (s.slot i).IsZeroCountWrite := by
  obtain ⟨pending, op, count⟩ := zero
  obtain ⟨sameCount, -, -, sameOp, -⟩ := h.engineKeeps.slotFields i
  exact ⟨Bool.eq_false_iff.mpr fun done => Bool.eq_false_iff.mp pending (h.done i done),
    sameOp.symm.trans op, sameCount.symm.trans count⟩

theorem visitSlot_outcome (i : Fin 16) (s : State) :
    (∃ t, visitSlot i s = .next t) ∨
    ((s.slot i).IsZeroCountWrite ∧ visitSlot i s = .refused .writeCountUnderflow) := by
  cases h : (s.slot i).done with
  | true => exact .inl ⟨_, visitSlot_done h⟩
  | false =>
    rw [visitSlot_pending h]
    rcases runCommand_outcome (s.slot i) { s with cur := i } with next | ⟨op, count, refused⟩
    · exact .inl next
    · exact .inr ⟨⟨h, op, count⟩, refused⟩

theorem passFrom_outcome (l : List (Fin 16)) (s : State) :
    (∃ t, passFrom l s = .next t) ∨
    ((∃ i, (s.slot i).IsZeroCountWrite) ∧ passFrom l s = .refused .writeCountUnderflow) := by
  induction l generalizing s with
  | nil => exact .inl ⟨s, rfl⟩
  | cons i l ih =>
    rcases visitSlot_outcome i s with ⟨u, visited⟩ | ⟨zero, refused⟩
    · rw [passFrom, visited, andThen_next]
      rcases ih u with next | ⟨⟨j, zero⟩, refused⟩
      · exact .inl next
      · exact .inr ⟨⟨j, (visitSlot_steps visited).1.zeroCountWrite zero⟩, refused⟩
    · exact .inr ⟨⟨i, zero⟩, by rw [passFrom, refused, andThen_refused]⟩

/-- A pass answers a next state, or is refused, and then some slot was a pending zero-count WRITE. -/
theorem enginePass_outcome (s : State) :
    (∃ t, enginePass s = .next t) ∨
    ((∃ i, (s.slot i).IsZeroCountWrite) ∧ enginePass s = .refused .writeCountUnderflow) := by
  rcases passFrom_outcome slotOrder s with ⟨t, next⟩ | ⟨zero, refused⟩
  · exact .inl ⟨{ t with cur := 0 }, by rw [enginePass, next, andThen_next]⟩
  · exact .inr ⟨zero, by rw [enginePass, refused, andThen_refused]⟩

/-- Settles O44: with no zero-count WRITE the pass answers a next state (`enginePass_outcome`), with every slot done and
the cursor at rest (`enginePass_steps`). -/
theorem triggeredPassCompletes : Obligations.TriggeredPassCompletes := by
  intro v s master start noZero
  rcases enginePass_outcome s with ⟨u, pass⟩ | ⟨⟨i, pending, op, count⟩, -⟩
  · obtain ⟨-, done, rests⟩ := enginePass_steps pass
    exact ⟨{ u with ctr := controlFields s.params.layout.ctr v },
      by rw [exec_wrCtr_trigger master start, pass, andThen_next], done, rfl, rests⟩
  · exact absurd count (noZero i pending op)

/-! ### Every admitted access is served (R151) -/

/-- A `CTR` write answers a next state, or is refused with the pass it triggers. -/
theorem exec_wrCtr_outcome (v : Word) (s : State) :
    (∃ t, exec (.wrCtr v) s = .next t) ∨
    (v.getLsbD s.params.layout.ctr.msMode.lo = s.params.masterMode ∧
      v.getLsbD s.params.layout.ctr.transStart.lo = true ∧ (∃ i, (s.slot i).IsZeroCountWrite) ∧
      exec (.wrCtr v) s = .refused .writeCountUnderflow) := by
  by_cases master : v.getLsbD s.params.layout.ctr.msMode.lo = s.params.masterMode
  · cases start : v.getLsbD s.params.layout.ctr.transStart.lo with
    | false => exact .inl ⟨_, exec_wrCtr_store master start⟩
    | true =>
      rw [exec_wrCtr_trigger master start]
      rcases enginePass_outcome s with ⟨u, pass⟩ | ⟨zero, refused⟩
      · exact .inl ⟨_, by rw [pass, andThen_next]⟩
      · exact .inr ⟨master, rfl, zero, by rw [refused, andThen_refused]⟩
  · exact .inl ⟨_, exec_wrCtr_slave master⟩

/-- The rows of the sixteen slots, as one family (R62). -/
def slotRow (i : Fin 16) : MapRow := ⟨0x58 + 4 * i.val, rdCmd i, wrCmd i⟩

theorem slotRows_eq : lowSlotRows ++ highSlotRows = (List.finRange 16).map slotRow := rfl

/-- A row of the register map is a register's or a slot's. -/
theorem mem_registerMap {r : MapRow} (h : r ∈ registerMap) : r ∈ registerRows ∨ ∃ i, r = slotRow i := by
  rw [registerMap, List.append_assoc, slotRows_eq] at h
  rcases List.mem_append.mp h with register | slot
  · exact .inl register
  · obtain ⟨i, -, row⟩ := List.mem_map.mp slot
    exact .inr ⟨i, row.symm⟩

/-- The row that an offset finds is a row of the map, at that offset. -/
theorem rowAt_eq_some {off : Nat} {r : MapRow} (h : rowAt off = some r) : r ∈ registerMap ∧ r.off = off := by
  have found := List.find?_some h
  exact ⟨List.mem_of_find?_eq_some h, beq_iff_eq.mp found⟩

/-- A read of `DATA` replies, whether or not `RXQ` is empty (R174). -/
theorem exec_rdData_replies (s : State) : ∃ u w, exec .rdData s = .next (reply w u) := by
  simp only [exec, execRdData, rxPopHost]
  split
  · exact ⟨_, _, rfl⟩
  · exact ⟨_, _, rfl⟩

/-- Every read of a register answers a next state and replies last. -/
theorem exec_registerRead_replies (s : State) : ∀ r ∈ registerRows, ∃ u w, exec r.rd s = .next (reply w u) := by
  simp only [registerRows, List.forall_mem_cons]
  exact ⟨⟨_, _, rfl⟩, ⟨_, _, rfl⟩, ⟨_, _, rfl⟩, exec_rdData_replies s, ⟨_, _, rfl⟩, ⟨_, _, rfl⟩, ⟨_, _, rfl⟩,
    ⟨_, _, rfl⟩, nofun⟩

/-- The read of any offset answers a next state and replies last. -/
theorem exec_readInstr_replies (off : Nat) (s : State) : ∃ u w, exec (readInstr off) s = .next (reply w u) := by
  unfold readInstr
  split
  · next r row =>
    rcases mem_registerMap (rowAt_eq_some row).1 with register | ⟨i, rfl⟩
    · exact exec_registerRead_replies s r register
    · exact ⟨_, _, exec_rdCmd i s⟩
  · exact ⟨_, _, rfl⟩

/-- Every write of a register but `CTR`'s answers a next state. -/
theorem exec_registerWrite_next (v : Word) (s : State) :
    ∀ r ∈ registerRows.tail, ∃ t, exec (r.wr v) s = .next t := by
  simp only [registerRows, List.tail_cons, List.forall_mem_cons]
  exact ⟨⟨_, rfl⟩, ⟨_, rfl⟩, ⟨_, rfl⟩, ⟨_, rfl⟩, ⟨_, rfl⟩, ⟨_, rfl⟩, ⟨_, rfl⟩, nofun⟩

/-- The write of any offset but `CTR`'s answers a next state. -/
theorem exec_writeInstr_next {off : Nat} (h : off ≠ 0x04) (v : Word) (s : State) :
    ∃ t, exec (writeInstr off v) s = .next t := by
  unfold writeInstr
  split
  · next r row =>
    obtain ⟨mem, at_off⟩ := rowAt_eq_some row
    rcases mem_registerMap mem with register | ⟨i, rfl⟩
    · rcases List.mem_cons.mp register with rfl | other
      · exact absurd at_off.symm h
      · exact exec_registerWrite_next v s r other
    · exact ⟨_, exec_wrCmd i v s⟩
  · exact ⟨_, rfl⟩

section
variable {s : State} {rest : List HostEvent} {off : Nat}

/-- A step on an admitted 4-byte read runs the operation of its offset. -/
theorem step_read (unfaulted : s.fault = none) (aligned : off % 4 = 0) (inside : off < s.params.windowBytes)
    (oldest : s.host = .access (.read off 4) :: rest) : step s = exec (readInstr off) { s with host := rest } :=
  (step_of_access unfaulted oldest).trans (serveAccess_of_decode (decode_readAt aligned inside))

/-- A step on an admitted 4-byte write runs the operation of its offset. -/
theorem step_write {v : Word} (unfaulted : s.fault = none) (aligned : off % 4 = 0) (inside : off < s.params.windowBytes)
    (oldest : s.host = .access (.write off (bytesOfWord v)) :: rest) :
    step s = exec (writeInstr off v) { s with host := rest } :=
  (step_of_access unfaulted oldest).trans (serveAccess_of_decode (decode_writeAt v aligned inside))

end

/-- Settles O12: every read replies (`exec_readInstr_replies`), every write but `CTR`'s completes
(`exec_writeInstr_next`), and a `CTR` write stops only with its pass (`exec_wrCtr_outcome`). -/
theorem admittedAccessYieldsNextState : Obligations.AdmittedAccessYieldsNextState := by
  intro s rest off v unfaulted aligned inside
  refine ⟨fun oldest => ?_, fun oldest => ?_, fun oldest here slave => ?_⟩
  · obtain ⟨u, w, replied⟩ := exec_readInstr_replies off { s with host := rest }
    exact ⟨_, w, (step_read unfaulted aligned inside oldest).trans replied, List.getLast?_concat⟩
  · rw [step_write unfaulted aligned inside oldest]
    by_cases here : off = 0x04
    · subst here
      rcases exec_wrCtr_outcome v { s with host := rest } with next | ⟨master, start, zero, refused⟩
      · exact .inl next
      · exact .inr ⟨rfl, master, start, zero, refused⟩
    · exact .inl (exec_writeInstr_next here v _)
  · subst here
    exact ⟨_, (step_write unfaulted aligned inside oldest).trans (exec_wrCtr_slave slave), rfl⟩

end Sys2Proof.Machine
end

section
/-! PROOFS. The fields of a register's word: what a packed word, and a word merged from two under a mask, holds at each
field. -/

namespace Sys2Proof

/-- A packed word holds at a field of `n` bits the `n`-bit value it was packed with. -/
theorem packFields_extractLsb' {l : List (BitField × Word)} (ok : fieldsOk (l.map Prod.fst) = true) {f : BitField}
    {n : Nat} {x : BitVec n} (hm : (f, x.setWidth 32) ∈ l) (hf : f.width = n) (hn : n ≤ 32) :
    (packFields l).extractLsb' f.lo n = x := by
  refine BitVec.eq_of_getLsbD_eq fun k hk => ?_
  rw [BitVec.getLsbD_extractLsb', packFields_getLsbD ok hm (by omega), BitVec.getLsbD_setWidth]
  simp [hk, show k < 32 by omega]

/-- A field of `n` bits taken from a word is the word's `n` bits from the field's low bit on. -/
theorem BitField.setWidth_get_eq_extractLsb' {f : BitField} {n : Nat} (hf : f.width = n) (v : Word) :
    (f.get v).setWidth n = v.extractLsb' f.lo n := by
  refine BitVec.eq_of_getLsbD_eq fun k hk => ?_
  rw [BitVec.getLsbD_setWidth, BitField.getLsbD_get, BitVec.getLsbD_extractLsb', hf, ← Bool.and_assoc, Bool.and_self]

/-- A field's value is 0 from the field's width on. -/
theorem BitField.getLsbD_get_of_le {f : BitField} {j : Nat} (h : f.width ≤ j) (v : Word) :
    (f.get v).getLsbD j = false := by
  rw [BitField.getLsbD_get, decide_eq_false (Nat.not_lt.mpr h), Bool.false_and]

/-- A flag of a packed word is the flag it was packed with; that it is one bit wide is known of a list it stands in. -/
theorem packFields_flag {l : List (BitField × Word)} (ok : fieldsOk (l.map Prod.fst) = true) {flags : List BitField}
    (oneBit : allFlags flags = true) {f : BitField} {b : Bool} (packed : (f, wordOfBool b) ∈ l) (mem : f ∈ flags) :
    (packFields l).getLsbD f.lo = b :=
  packFields_bit ok packed (allFlags_width oneBit mem)

/-- A word merged from two under a mask, bit by bit. -/
theorem getLsbD_merge (m v w : Word) (k : Nat) :
    (v &&& m ||| w &&& ~~~m).getLsbD k = if m.getLsbD k then v.getLsbD k else w.getLsbD k := by
  by_cases hk : k < 32
  · rw [BitVec.getLsbD_or, BitVec.getLsbD_and, BitVec.getLsbD_and, BitVec.getLsbD_not, decide_eq_true hk]
    cases m.getLsbD k <;> simp
  · simp [BitVec.getLsbD_of_ge _ _ (Nat.le_of_not_lt hk)]

end Sys2Proof

namespace Sys2Proof.Machine

/-- A packed register is 0 in every bit of no field (R42). -/
theorem packFields_unspecified {l : List (BitField × Word)} {k : Nat} (h : Unspecified (l.map Prod.fst) k) :
    (packFields l).getLsbD k = false :=
  packFields_outside l fun p hp => h p.1 (List.mem_map_of_mem hp)

/-! ### `CTR`, `SR` and `FIFO_CONF` read field by field (R132, R134, R136) -/

/-- Settles O14: the word of `CTR` is its fields packed, the trigger bit as 0. -/
theorem readControlReturnsItsFields : Obligations.ReadControlReturnsItsFields := by
  intro s wf
  have ok := Ctr.pairs_ok wf { s.ctr with transStart := false }
  have oneBit := (Layout.wf_ctr wf).2
  refine ⟨_, exec_rdCtr s, ?_, ?_, ?_, ?_, ?_, ?_, ?_, ?_,
    fun k outside => packFields_unspecified (l := Ctr.pairs s.params.layout.ctr _) outside⟩
  all_goals exact packFields_flag ok oneBit (by simp [Ctr.pairs]) (by simp [CtrLayout.fields])

/-- Settles O16: the word of `SR` is its stored fields and the two counts packed (`statusWord_eq_pack`). -/
theorem readStatusReturnsItsFields : Obligations.ReadStatusReturnsItsFields := by
  intro s wf
  obtain ⟨-, oneBit, rx, tx⟩ := Layout.wf_sr wf
  have ok := statusPairs_ok wf
  refine ⟨_, exec_rdSr s, ?_⟩
  rw [statusWord_eq_pack]
  refine ⟨?_, ?_, ?_, ?_, ?_, ?_, ?_,
    packFields_extractLsb' ok (by simp [statusPairs, countField]) rx (by decide),
    packFields_extractLsb' ok (by simp [statusPairs, countField]) tx (by decide),
    fun j => packFields_getLsbD ok (by simp [statusPairs, Sr.pairs]),
    fun j => packFields_getLsbD ok (by simp [statusPairs, Sr.pairs]),
    fun k outside => packFields_unspecified (l := statusPairs s) outside⟩
  all_goals exact packFields_flag ok oneBit (by simp [statusPairs, Sr.pairs]) (by simp [SrLayout.flags])

/-- Settles O20: the word of `FIFO_CONF` is its fields packed. -/
theorem readFifoConfReturnsItsFields : Obligations.ReadFifoConfReturnsItsFields := by
  intro s wf
  have oneBit := (Layout.wf_fifoConf wf).2
  have ok := FifoConf.pairs_ok wf s.fifoConf
  refine ⟨_, exec_rdFifoConf s, ?_⟩
  rw [FifoConf.toWord_eq_pack]
  refine ⟨fun j => packFields_getLsbD ok ?_, fun j => packFields_getLsbD ok ?_, packFields_flag ok oneBit ?_ ?_,
    packFields_flag ok oneBit ?_ ?_, packFields_flag ok oneBit ?_ ?_, packFields_flag ok oneBit ?_ ?_,
    fun j => packFields_getLsbD ok ?_, fun j => packFields_getLsbD ok ?_,
    fun k outside => packFields_unspecified (l := FifoConf.pairs s.params.layout.fifoConf s.fifoConf) outside⟩
  all_goals simp [FifoConf.pairs, FifoConfLayout.flags]

/-! ### A Status write (R133) -/

section
variable {p : Params} (wf : p.layout.wf = true) (v : Word) {r : Sr}
include wf

/-- A flag of `SR` after a masked write: the written bit where the mask has a 1, the old flag elsewhere. -/
theorem maskedStatus_flag {f : BitField} {b : Bool} (packed : (f, wordOfBool b) ∈ Sr.pairs p.layout.sr r)
    (mem : f ∈ p.layout.sr.flags) :
    f.bit (v &&& p.srWriteMask ||| r.toWord p.layout.sr &&& ~~~p.srWriteMask) =
      if p.srWriteMask.getLsbD f.lo then v.getLsbD f.lo else b := by
  obtain ⟨-, oneBit, -, -⟩ := Layout.wf_sr wf
  have old : (r.toWord p.layout.sr).getLsbD f.lo = b :=
    packFields_flag (Sr.pairs_ok wf r) oneBit packed mem
  rw [BitField.bit, getLsbD_merge, old]

/-- A wider field of `SR` after a masked write, bit by bit. -/
theorem maskedStatus_field {f : BitField} {x : Word} (packed : (f, x) ∈ Sr.pairs p.layout.sr r) {j : Nat}
    (hj : j < f.width) :
    (f.get (v &&& p.srWriteMask ||| r.toWord p.layout.sr &&& ~~~p.srWriteMask)).getLsbD j =
      if p.srWriteMask.getLsbD (f.lo + j) then v.getLsbD (f.lo + j) else x.getLsbD j := by
  have old : (r.toWord p.layout.sr).getLsbD (f.lo + j) = x.getLsbD j :=
    packFields_getLsbD (Sr.pairs_ok wf r) packed hj
  rw [BitField.getLsbD_get, getLsbD_merge, old, decide_eq_true hj, Bool.true_and]

end

/-- Settles O18: the written word is merged with the old one under the mask, and its fields are stored. -/
theorem writeStatusChangesMaskedBits : Obligations.WriteStatusChangesMaskedBits := by
  intro v s wf
  refine ⟨_, rfl, maskedStatus_flag wf v ?_ ?_, maskedStatus_flag wf v ?_ ?_, maskedStatus_flag wf v ?_ ?_,
    maskedStatus_flag wf v ?_ ?_, maskedStatus_flag wf v ?_ ?_, maskedStatus_flag wf v ?_ ?_,
    maskedStatus_flag wf v ?_ ?_, fun j => maskedStatus_field wf v ?_, fun j => maskedStatus_field wf v ?_,
    fun j beyond => BitField.getLsbD_get_of_le beyond _, fun j beyond => BitField.getLsbD_get_of_le beyond _⟩
  all_goals simp [Sr.pairs, SrLayout.flags]

/-! ### A `FIFO_CONF` write (R135) -/

theorem ite_txReset (clear : Bool) (s : State) :
    (if clear then txReset s else s) = { s with txq := if clear then [] else s.txq } := by
  cases clear <;> rfl

theorem ite_rxReset (clear : Bool) (s : State) :
    (if clear then rxReset s else s) = { s with rxq := if clear then [] else s.rxq } := by
  cases clear <;> rfl

/-- Settles O19: the fields are stored, and each reset bit written as 1 empties its FIFO (R175, R176). -/
theorem writeFifoConfStoresAndClears : Obligations.WriteFifoConfStoresAndClears := by
  intro v s
  simp only [exec, execWrFifoConf, ite_rxReset, ite_txReset]
  rfl

/-! ### `DATA` (R137, R138) -/

/-- Settles O22, by whether `TXQ` is full (R171). -/
theorem writeDataPushesOrReportsOverflow : Obligations.WriteDataPushesOrReportsOverflow := by
  intro v s
  refine ⟨fun full => congrArg Host.Outcome.next (if_pos full), fun room => ?_⟩
  have low : dataByte v = v.extractLsb' 0 8 := BitVec.setWidth_eq_extractLsb' (by decide)
  rw [← low]
  exact congrArg Host.Outcome.next (if_neg room)

/-- Settles O24, by whether `RXQ` is empty (R174). -/
theorem readDataPopsOldestByte : Obligations.ReadDataPopsOldestByte := by
  intro s
  refine ⟨fun b q oldest => ?_, fun empty => ?_⟩
  · simp [exec, execRdData, rxPopHost, oldest, wordOfByte, emit]
  · simp [exec, execRdData, rxPopHost, empty, emit]

/-! ### The interrupt registers (R139 to R146) -/

/-- Settles O25: the value is put out and the register cleared in one update. -/
theorem readRawInterruptsIsDestructive : Obligations.ReadRawInterruptsIsDestructive := fun _ => rfl

/-- Settles O26, by what clearing does (`clearIrq_eq`). -/
theorem clearWriteZeroesStatusAndLine : Obligations.ClearWriteZeroesStatusAndLine :=
  fun _ s => congrArg Host.Outcome.next (clearIrq_eq s)

/-- Settles O27: each read puts out its register. -/
theorem interruptMaskAndStatusReads : Obligations.InterruptMaskAndStatusReads := fun s => ⟨exec_rdIntEna s, rfl⟩

/-- Settles O28: the two writes are ignored, the read puts out 0. -/
theorem accessesAgainstTheLabelDoNothing : Obligations.AccessesAgainstTheLabelDoNothing :=
  fun _ _ => ⟨rfl, rfl, rfl⟩

/-- Settles O30: the low half of the value is stored. -/
theorem writeEnableStoresMaskOnly : Obligations.WriteEnableStoresMaskOnly := by
  intro v s
  have low : eventBits v = v.extractLsb' 0 16 := BitVec.setWidth_eq_extractLsb' (by decide)
  rw [← low]
  rfl

/-! ### The slots (R147, R148) -/

/-- The slot a write leaves, field by field. -/
theorem Slot.ofWrite_eq {L : Layout} (wf : L.wf = true) (v : Word) : Slot.ofWrite L.cmd v =
    { byteNum := v.extractLsb' L.cmd.byteNum.lo 8, ackEn := v.getLsbD L.cmd.ackEn.lo,
      ackExp := v.getLsbD L.cmd.ackExp.lo, ackVal := v.getLsbD L.cmd.ackVal.lo,
      opCode := v.extractLsb' L.cmd.opCode.lo 3, done := false } := by
  obtain ⟨-, -, -, -, count, op⟩ := Layout.wf_cmd wf
  rw [Slot.ofWrite, CmdLayout.byteNumOf, CmdLayout.opCodeOf,
    BitField.setWidth_get_eq_extractLsb' count, BitField.setWidth_get_eq_extractLsb' op]
  rfl

/-- Settles O31: the sixteen writes are one (`exec_wrCmd`), and it sets one slot. -/
theorem writeSlotProgramsPendingCommand : Obligations.WriteSlotProgramsPendingCommand := by
  intro i v s wf
  refine ⟨_, exec_wrCmd i v s, ?_, fun j other => setSlot_slot_ne s other.symm _, rfl⟩
  rw [writeSlot, setSlot_slot_self, Slot.ofWrite_eq wf]

/-- Settles O32: the sixteen reads are one (`exec_rdCmd`), and a slot's word is its fields packed. -/
theorem readSlotReturnsItsFields : Obligations.ReadSlotReturnsItsFields := by
  intro i s wf
  obtain ⟨-, en, ex, av, count, op⟩ := Layout.wf_cmd wf
  have ok := Slot.pairs_ok wf (s.slot i)
  refine ⟨_, exec_rdCmd i s, ?_⟩
  rw [Slot.toWord_eq_pack]
  refine ⟨packFields_extractLsb' ok ?_ count (by decide), packFields_bit ok ?_ en, packFields_bit ok ?_ ex,
    packFields_bit ok ?_ av, packFields_extractLsb' ok ?_ op (by decide), packFields_bit (f := doneField) ok ?_ rfl,
    fun k notDone outside => packFields_unspecified (List.forall_mem_cons.mpr ⟨Nat.lt_or_gt_of_ne notDone, outside⟩)⟩
  all_goals simp [Slot.pairs]

/-! ### Unknown offsets (R149, R150) -/

/-- Settles O33: the read reports and replies 0 (`exec_rdUnknown`), the write reports. -/
theorem unknownOffsetsAreLoggedNoOps : Obligations.UnknownOffsetsAreLoggedNoOps :=
  fun off _ s => ⟨exec_rdUnknown off s, rfl⟩

end Sys2Proof.Machine
end

section
/-! PROOFS. The FIFOs as a host sees them: the counts of a Status read as numbers (R177), and what a sequence of pushes
leaves in `TXQ` (R171). -/

namespace Sys2Proof.Machine

/-- A count of at most 32 bytes is exact in the 6 bits of its field (R177). -/
theorem toNat_count {n : Nat} (bound : n ≤ 32) : (BitVec.ofNat 6 n).toNat = n :=
  Nat.mod_eq_of_lt (by omega)

/-- Settles O17: the counts are the lengths in 6 bits (`readStatusReturnsItsFields`), and 32 fits in 6 bits. -/
theorem statusCountsAreExact : Obligations.StatusCountsAreExact := by
  rintro s wf ⟨txBound, rxBound⟩
  obtain ⟨w, replied, -, -, -, -, -, -, -, rx, tx, -⟩ := readStatusReturnsItsFields s wf
  refine ⟨w, replied, ?_⟩
  rw [rx, tx, toNat_count rxBound, toNat_count txBound]
  exact ⟨rfl, rfl, rxBound, txBound⟩

/-! ### Pushing bytes into `TXQ` -/

section
variable {s : State} (b : Byte)

/-- Pushing a byte into a full `TXQ` only reports the overflow (R171). -/
theorem exec_wrData_full (full : s.txq.length = 32) :
    exec (.wrData (b.setWidth 32)) s = .next { s with out := s.out ++ [.diag .txFifoOverflow] } :=
  (writeDataPushesOrReportsOverflow _ s).1 full

/-- Pushing a byte with room in `TXQ` puts that byte at its end (R171): the lane of `DATA` carries it whole. -/
theorem exec_wrData_room (room : s.txq.length ≠ 32) :
    exec (.wrData (b.setWidth 32)) s = .next { s with txq := s.txq ++ [b] } := by
  have lane : (b.setWidth 32).extractLsb' 0 8 = b := by
    rw [← BitVec.setWidth_eq_extractLsb' (by decide), BitVec.setWidth_setWidth_of_le _ (by decide), BitVec.setWidth_eq]
  rw [(writeDataPushesOrReportsOverflow _ s).2 room, lane]

end

/-- Settles O23, by induction on the bytes: each either finds `TXQ` full, and then it and all after it are reported, or
goes to the end of `TXQ`. -/
theorem pushesFillThenOverflow : Obligations.PushesFillThenOverflow := by
  intro bytes
  induction bytes with
  | nil =>
    intro s bound
    simp [List.take_of_length_le bound, Nat.sub_eq_zero_of_le bound]
  | cons b bytes ih =>
    intro s bound
    rw [List.foldl_cons, andThen_next]
    by_cases full : s.txq.length = 32
    · rw [exec_wrData_full b full, ih { s with out := s.out ++ [.diag .txFifoOverflow] } bound]
      simp [full, List.replicate_succ]
    · have grown : (s.txq ++ [b]).length ≤ 32 := by rw [List.length_append, List.length_singleton]; omega
      rw [exec_wrData_room b full, ih { s with txq := s.txq ++ [b] } grown]
      simp [Nat.add_assoc, Nat.add_comm 1]

end Sys2Proof.Machine
end

section
/-! PROOFS. The commands one by one (R195 to R202): what each does in the slot under the cursor, in the closed form of
its rule. -/

namespace Sys2Proof.Machine

/-! ### A command is its body, and then the slot is marked done (R193) -/

section
variable {n : BitVec 8} {en ex av : Bool} {s : State}

theorem exec_cmdRestart : exec (.cmdRestart n en ex av) s = .next (withDone (busEnd (setBusBusy false s))) := rfl

theorem exec_cmdWrite : exec (.cmdWrite n en ex av) s =
    andThen (writeBody n en ex s) fun t => .next (withDone t) := rfl

theorem exec_cmdRead : exec (.cmdRead n en ex av) s = .next (withDone (readBody s)) := rfl

theorem exec_cmdStop : exec (.cmdStop n en ex av) s =
    .next (withDone (raiseIrq .transComplete (busEnd (setBusBusy false s)))) := rfl

theorem exec_cmdEnd : exec (.cmdEnd n en ex av) s = .next (withDone (raiseIrq .endDetect s)) := rfl

end

/-! ### RESTART, STOP, END and the unknown opcodes (R195, R200 to R202) -/

/-- Settles O34, by RESTART's body (`exec_cmdRestart`). -/
theorem restartIdlesTheBus : Obligations.RestartIdlesTheBus := fun _ _ _ _ _ => exec_cmdRestart

/-- Settles O35, by STOP's body and the closed form of raising an event. -/
theorem stopEndsAndCompletes : Obligations.StopEndsAndCompletes := by
  intro n en ex av s
  rw [exec_cmdStop, raiseIrq_eq]
  rfl

/-- Settles O36, by END's body and the closed form of raising an event, by whether `end_detect` is enabled. -/
theorem endRaisesEndDetect : Obligations.EndRaisesEndDetect := by
  intro n en ex av s
  rw [exec_cmdEnd, raiseIrq_eq]
  cases enabled : s.intEna.getLsbD (s.bitOf .endDetect) with
  | false => simp [withDone, afterEvent, State.slot, enabled]
  | true => cases line : s.irq <;> simp [withDone, afterEvent, State.slot, enabled, line]

/-- Settles O37: none of the three opcodes has a body. -/
theorem unknownOpcodesOnlyCompleteTheSlot : Obligations.UnknownOpcodesOnlyCompleteTheSlot :=
  fun _ _ _ _ _ => ⟨rfl, rfl, rfl⟩

/-! ### What the transport answers (R79) -/

/-- An answer taken from a script of answers, or drawn: the oldest scripted answer is taken and removed; without one the
draw counter advances. -/
def TakesAnswer {α : Type} (script : List α) (draws : Nat) (answer : α) (script' : List α) (draws' : Nat) : Prop :=
  (∀ a as, script = a :: as → answer = a ∧ script' = as ∧ draws' = draws) ∧
  (script = [] → script' = [] ∧ draws' = draws + 1)

theorem takesAnswer_scripted {α : Type} (a : α) (as : List α) (n : Nat) : TakesAnswer (a :: as) n a as n := by
  simp [TakesAnswer]

theorem takesAnswer_drawn {α : Type} (a : α) (n : Nat) : TakesAnswer [] n a [] (n + 1) := by
  simp [TakesAnswer]

/-- `Bus.begin` takes or draws its answer and puts out the call with it, and does nothing else. -/
theorem busBegin_takesAnswer (a : BitVec 7) (d : Direction) (s : State) :
    ∃ r answers draws, TakesAnswer s.beginAnswers s.draws r answers draws ∧ busBegin a d s =
      (r, { s with beginAnswers := answers, draws := draws, out := s.out ++ [.busBegin a d r] }) := by
  unfold busBegin
  split
  · next r rs h => exact ⟨r, rs, s.draws, h ▸ takesAnswer_scripted r rs s.draws, rfl⟩
  · next h => exact ⟨_, s.beginAnswers, s.draws + 1, h ▸ takesAnswer_drawn _ _, rfl⟩

/-- `Bus.recv` takes or draws its byte and puts out the call with it, and does nothing else. -/
theorem busRecv_takesAnswer (s : State) :
    ∃ b answers draws, TakesAnswer s.recvAnswers s.draws b answers draws ∧ busRecv s =
      (b, { s with recvAnswers := answers, draws := draws, out := s.out ++ [.busRecv b] }) := by
  unfold busRecv
  split
  · next b bs h => exact ⟨b, bs, s.draws, h ▸ takesAnswer_scripted b bs s.draws, rfl⟩
  · next h => exact ⟨_, s.recvAnswers, s.draws + 1, h ▸ takesAnswer_drawn _ _, rfl⟩

/-! ### READ (R199) -/

theorem readBody_full {s : State} (full : s.rxq.length = 32) : readBody s = afterEvent (s.bitOf .rxFifoOvf) s :=
  (if_pos full).trans (raiseIrq_eq ..)

/-- With room in `RXQ` the byte is appended, and `rx_fifo_full` is raised if it was the last that fits. -/
theorem readBody_room {s t : State} {b : Byte} (room : s.rxq.length ≠ 32) (received : busRecv s = (b, t)) :
    readBody s = if (t.rxq ++ [b]).length = 32 then afterEvent (t.bitOf .rxFifoFull) (rxPush b t) else rxPush b t := by
  simp only [readBody, received, if_neg room, rxPush_rxq, raiseIrq_eq]
  rfl

/-- Settles O38, by whether `RXQ` is full, and then by the byte `Bus.recv` answers. -/
theorem readMovesOneByteOrOverflows : Obligations.ReadMovesOneByteOrOverflows := by
  intro n en ex av s
  rw [exec_cmdRead]
  refine ⟨fun full => by rw [readBody_full full], fun room => ?_⟩
  obtain ⟨b, answers, draws, ⟨scripted, drawn⟩, received⟩ := busRecv_takesAnswer s
  refine ⟨b, answers, draws, scripted, drawn, ?_⟩
  rw [readBody_room room received, List.length_append, List.length_singleton]
  rfl

/-! ### WRITE (R196, R198) -/

/-- A not-acknowledged address (R196, R244). -/
theorem addressNack_eq (a : BitVec 7) (s : State) : addressNack a s = afterEvent (s.bitOf .ackErr)
    { s with sr := { s.sr with ackRec := false }, out := s.out ++ [.diag (.noAck a)] } := raiseIrq_eq ..

/-- An acknowledged address (R196). -/
theorem addressOk_eq (en ex : Bool) (s : State) : addressOk en ex s = afterEvent (s.bitOf .transStart)
    { s with
      sr := { s.sr with busBusy := true, ackRec := true, byteTrans := true }
      cmd := s.cmd.set s.cur { s.slot s.cur with ackVal := en && ex } } := raiseIrq_eq ..

/-- Settles O39, by the cases of WRITE's body; each ends in its closed form with the slot marked done. -/
theorem writeCommandEffect : Obligations.WriteCommandEffect := by
  intro n en ex av s
  refine ⟨fun busy => ?_, fun idle empty => ?_, fun b q idle first => ?_⟩
  · rw [exec_cmdWrite, writeBody_busy busy, dataPhase_eq, andThen_next]
  · rw [exec_cmdWrite, writeBody_empty idle empty, raiseIrq_eq, andThen_next]
  · obtain ⟨r, answers, draws, ⟨scripted, drawn⟩, answer⟩ :=
      busBegin_takesAnswer (addressOf b) (directionOf b) { s with txq := q }
    refine ⟨r, answers, draws, scripted, drawn, ?_, ?_, ?_⟩
    · rintro rfl
      rw [exec_cmdWrite, writeBody_nack idle first answer, addressNack_eq, andThen_next, List.append_assoc]
      rfl
    · rintro rfl zero
      rw [exec_cmdWrite, writeBody_ok idle first answer, if_pos zero, andThen_refused]
    · rintro rfl nonzero
      rw [exec_cmdWrite, writeBody_ok idle first answer, if_neg nonzero, addressOk_eq, dataPhase_eq, andThen_next]
      rfl

/-- WRITE is refused exactly when its body is. -/
theorem exec_cmdWrite_refused {n : BitVec 8} {en ex av : Bool} {s : State} {e : Refusal} :
    exec (.cmdWrite n en ex av) s = .refused e ↔ writeBody n en ex s = .refused e := by
  simp [exec_cmdWrite, andThen_eq_refused]

/-- WRITE's body is refused exactly when the count is 0 and its address phase is acknowledged. -/
theorem writeBody_refused_iff {n : BitVec 8} {en ex : Bool} {s : State} :
    writeBody n en ex s = .refused .writeCountUnderflow ↔
      n = 0 ∧ s.sr.busBusy = false ∧ ∃ b q, s.txq = b :: q ∧
        (busBegin (addressOf b) (directionOf b) { s with txq := q }).1 = .ok := by
  cases bus : s.sr.busBusy with
  | true => simp [writeBody_busy bus]
  | false =>
    cases first : s.txq with
    | nil => simp [writeBody_empty bus first]
    | cons b q =>
      rcases answer : busBegin (addressOf b) (directionOf b) { s with txq := q } with ⟨r, u⟩
      cases r with
      | nack => simp [writeBody_nack bus first answer, answer]
      | ok => simp [writeBody_ok bus first answer, answer]

/-- Settles O40: WRITE ends as its body does, in a next state or in the refusal (`writeBody_outcome`), and the refusal
has the one cause (`writeBody_refused_iff`). -/
theorem writeIsRefusedOnlyOnAcknowledgedZeroCount : Obligations.WriteIsRefusedOnlyOnAcknowledgedZeroCount := by
  intro n en ex av s
  refine ⟨?_, exec_cmdWrite_refused.trans writeBody_refused_iff⟩
  rcases writeBody_outcome n en ex s with ⟨t, next⟩ | ⟨-, refused⟩
  · exact .inl ⟨_, by rw [exec_cmdWrite, next, andThen_next]⟩
  · exact .inr (exec_cmdWrite_refused.mpr refused)

end Sys2Proof.Machine
end

section
/-! PROOFS. A pass slot by slot: the order of its visits, what a visit runs, what a completed pass has done and kept, and
the passes with no pending slot and with one. -/

namespace Sys2Proof.Machine

/-! ### The order of the visits (R191, R205) -/

/-- Visiting slots in turn is a fold of the visits. -/
theorem foldl_visitSlot (l : List (Fin 16)) (r : Result) :
    l.foldl (fun r i => andThen r (visitSlot i)) r = andThen r (passFrom l) := by
  induction l generalizing r with
  | nil => cases r <;> rfl
  | cons i l ih =>
    rw [List.foldl_cons, ih, andThen_assoc]
    rfl

/-- Settles O41: the order is decided on the sixteen indices, and the fold of the visits is the pass. -/
theorem passVisitsSlotsInAscendingOrder : Obligations.PassVisitsSlotsInAscendingOrder := by
  refine ⟨by decide, mem_slotOrder, fun s => ?_⟩
  have order : slotOrder = List.finRange 16 := by decide
  rw [foldl_visitSlot, andThen_next, ← order, enginePass]

/-! ### What a visit runs (R74, R191) -/

/-- A slot's word, as the engine fetches it, decodes to the command of the slot's fields (R94). -/
theorem decodeCommand_toWord {L : Layout} (wf : L.wf = true) (c : Slot) : decodeCommand L.cmd (c.toWord L.cmd) =
    commandOf (opcodeOf c.opCode) c.byteNum c.ackEn c.ackExp c.ackVal := by
  have fields := Slot.ofWrite_toWord wf c
  simp only [Slot.ofWrite, Slot.mk.injEq] at fields
  obtain ⟨byteNum, ackEn, ackExp, ackVal, opCode, -⟩ := fields
  rw [decodeCommand, byteNum, ackEn, ackExp, ackVal, opCode]

/-- Settles O42, by the two cases of a visit and the command of a slot's word (`decodeCommand_toWord`). -/
theorem visitSkipsDoneAndRunsPendingSlot : Obligations.VisitSkipsDoneAndRunsPendingSlot := by
  intro i s
  refine ⟨visitSlot_done, fun pending wf => ?_⟩
  rw [decodeCommand_toWord wf, exec_commandOf, encode_commandOf]
  exact ⟨visitSlot_pending pending, rfl⟩

/-! ### What a pass does to the slots and keeps (R192, R198, R203) -/

/-- Settles O43: a completed pass leaves every slot done and is a chain of effects, each of which keeps the rest. -/
theorem passFinishesSlotsAndKeepsHostState : Obligations.PassFinishesSlotsAndKeepsHostState := by
  intro s t pass
  obtain ⟨steps, done, -⟩ := enginePass_steps pass
  exact ⟨done, steps.engineKeeps⟩

/-- Settles O45, by the outcome of a pass, visit by visit (`enginePass_outcome`). -/
theorem passNeverFaultsAndRefusesOnlyZeroCount : Obligations.PassNeverFaultsAndRefusesOnlyZeroCount := fun s =>
  (enginePass_outcome s).imp_right And.symm

/-- Settles O49, by a pass not looking at the two registers (`enginePass_ignoresConfig`). -/
theorem engineIgnoresControlAndFifoConf : Obligations.EngineIgnoresControlAndFifoConf := fun s c f =>
  enginePass_ignoresConfig (fun _ => c) (fun _ => f) s

/-! ### Passes with no pending slot, and with slot 0 alone pending -/

/-- Visiting done slots moves the cursor alone (R193). -/
theorem passFrom_done {l : List (Fin 16)} {s : State} (done : ∀ i ∈ l, (s.slot i).done = true) :
    ∃ c, passFrom l s = .next { s with cur := c } := by
  induction l generalizing s with
  | nil => exact ⟨s.cur, rfl⟩
  | cons i l ih =>
    obtain ⟨first, others⟩ := List.forall_mem_cons.mp done
    rw [passFrom, visitSlot_done first, andThen_next]
    exact ih (s := { s with cur := i }) others

/-- A pass with nothing pending leaves the cursor at rest and does nothing else (R207). -/
theorem enginePass_done {s : State} (done : AllDone s) : enginePass s = .next { s with cur := 0 } := by
  obtain ⟨c, skipped⟩ := passFrom_done (l := slotOrder) fun i _ => done i
  rw [enginePass, skipped, andThen_next]

/-- A pass with slot 0 alone pending is its command. -/
theorem enginePass_sole {s : State} (pending : (s.slot 0).done = false)
    (done : ∀ i ≠ 0, (s.slot i).done = true) :
    enginePass s = andThen (runCommand (s.slot 0) { s with cur := 0 }) fun t => .next { t with cur := 0 } := by
  have order : slotOrder = 0 :: slotOrder.tail := rfl
  have others : ∀ i ∈ slotOrder.tail, i ≠ 0 := by decide
  rw [enginePass, order, passFrom, andThen_assoc, visitSlot_pending pending]
  rcases runCommand_outcome (s.slot 0) { s with cur := 0 } with ⟨t, ran⟩ | ⟨-, -, refused⟩
  · have steps := (runCommand_steps (s := { s with cur := 0 }) pending ran).1
    obtain ⟨c, skipped⟩ := passFrom_done fun i hi => steps.done i (done i (others i hi))
    rw [ran, andThen_next, skipped, andThen_next, andThen_next]
  · rw [refused, andThen_refused, andThen_refused]

/-- Settles O46: the write stores its fields around a pass that does nothing (`enginePass_done`). -/
theorem passWithNothingPendingChangesNothing : Obligations.PassWithNothingPendingChangesNothing := by
  intro v s master start ⟨rests, _⟩ done
  rw [exec_wrCtr_trigger master start, enginePass_done done, andThen_next, ← rests]

/-! ### A command placed by `withFetchWord` (log entry 4) -/

/-- `CTR` as the word that triggers the engine leaves it during the pass (R131). -/
def Ctr.triggered (master : Bool) (c : Ctr) : Ctr := { c with msMode := master, transStart := true }

/-- The fields of the word that triggers the engine. -/
theorem ofWord_triggerWord {s : State} (wf : s.params.layout.wf = true) :
    Ctr.ofWord s.params.layout.ctr (triggerWord s) = s.ctr.triggered s.params.masterMode :=
  Ctr.ofWord_written wf _

/-- A write of the triggering word runs a pass. -/
theorem exec_wrCtr_triggerWord {s : State} (wf : s.params.layout.wf = true) : exec (.wrCtr (triggerWord s)) s =
    andThen (enginePass { s with ctr := s.ctr.triggered s.params.masterMode }) fun t => .next (clearTrigger t) := by
  have master : (triggerWord s).getLsbD s.params.layout.ctr.msMode.lo = s.params.masterMode :=
    congrArg Ctr.msMode (ofWord_triggerWord wf)
  have start : (triggerWord s).getLsbD s.params.layout.ctr.transStart.lo = true :=
    congrArg Ctr.transStart (ofWord_triggerWord wf)
  rw [exec_wrCtr_master master, if_pos start, ofWord_triggerWord wf]

/-- The state with the command `c` alone pending, in slot 0, and the access that triggers the engine in front. -/
def placeCommand (c : Slot) (s : State) : State :=
  { s with
    cmd := soleCommand c s.cmd
    host := .access (.write 0x04 (bytesOfWord (triggerWord s))) :: s.host }

/-- A number that is no offset of the map is placed as the command it decodes to. -/
theorem withFetchWord_command {w : Nat} (range : w < 2 ^ 32) (unmapped : isMapped w = false) (s : State) :
    s.withFetchWord 32 w = placeCommand (Slot.ofWrite defaultLayout.cmd (BitVec.ofNat 32 w)) s := by
  have encoded : tableEncoded 32 w = .cmd (BitVec.ofNat 32 w) := by
    rw [tableEncoded, Nat.mod_eq_of_lt range, unmapped]
    rfl
  rw [State.withFetchWord, placeTableWord, encoded, placeCommand]

/-- The slots with a sole command: it is in slot 0, pending, and every other slot is done. -/
theorem soleCommand_slot {s : State} {c : Slot} {cmd : Vector Slot 16} (h : s.cmd = soleCommand c cmd) :
    s.slot 0 = { c with done := false } ∧ ∀ i ≠ 0, (s.slot i).done = true := by
  have slots := slot_of_cmd_set (s := { s with cmd := allDone cmd }) (t := s) (i := 0)
    (c := { c with done := false }) h
  refine ⟨slots 0, fun i nonzero => ?_⟩
  rw [slots i, if_neg nonzero.symm]
  simp [State.slot]

/-- The step on a placed command is the command in slot 0, between the trigger bit's rise and its fall. -/
theorem step_placeCommand {s : State} (unfaulted : s.fault = none) (wf : s.params.wf = true) (c : Slot) :
    step (placeCommand c s) =
      andThen (runCommand c
          { s with cmd := soleCommand c s.cmd, cur := 0, ctr := s.ctr.triggered s.params.masterMode })
        fun t => .next (clearTrigger { t with cur := 0 }) := by
  have inside : 0x04 < s.params.windowBytes := by have := Params.wf_window wf; omega
  have write : step (placeCommand c s) =
      exec (.wrCtr (triggerWord s)) { s with cmd := soleCommand c s.cmd } :=
    step_write (s := placeCommand c s) unfaulted rfl inside rfl
  obtain ⟨first, others⟩ := soleCommand_slot
    (s := { s with cmd := soleCommand c s.cmd, ctr := s.ctr.triggered s.params.masterMode }) rfl
  have pass := exec_wrCtr_triggerWord (s := { s with cmd := soleCommand c s.cmd }) (Params.wf_layout wf)
  rw [enginePass_sole (by rw [first]) others, first, andThen_assoc] at pass
  exact write.trans pass

/-- Settles O13: the number is placed as its command, and the step on a placed command runs it alone. -/
theorem placedCommandRunsAlone : Obligations.PlacedCommandRunsAlone := by
  intro s w range unmapped unfaulted wf
  rw [withFetchWord_command range unmapped, step_placeCommand unfaulted wf, exec_decodeCommand]
  rfl

end Sys2Proof.Machine
end

section
/-! PROOFS. The transport calls: how many a pass makes, and that no host operation but a triggering `CTR` write makes one
or raises an event. -/

namespace Sys2Proof.Machine

/-! ### Calls of a visit and of a pass (R192, R206) -/

/-- From `s` to `t` outputs were appended only, and among them at most `n` calls of each of `Bus.begin`, `Bus.end` and
`Bus.recv`. -/
def CallsWithin (n : Nat) (s t : State) : Prop :=
  ∃ new, t.out = s.out ++ new ∧
    new.countP Output.isBegin ≤ n ∧ new.countP Output.isEnd ≤ n ∧ new.countP Output.isRecv ≤ n

theorem CallsWithin.trans {m n : Nat} {s t u : State} (hst : CallsWithin m s t) (htu : CallsWithin n t u) :
    CallsWithin (m + n) s u := by
  obtain ⟨new, out, begins, ends, recvs⟩ := hst
  obtain ⟨new', out', begins', ends', recvs'⟩ := htu
  refine ⟨new ++ new', by rw [out', out, List.append_assoc], ?_, ?_, ?_⟩
  · rw [List.countP_append]; exact Nat.add_le_add begins begins'
  · rw [List.countP_append]; exact Nat.add_le_add ends ends'
  · rw [List.countP_append]; exact Nat.add_le_add recvs recvs'

/-- Where the outputs do not change there is no call. -/
theorem callsWithin_of_out_eq {s t : State} (n : Nat) (same : t.out = s.out) : CallsWithin n s t :=
  ⟨[], by rw [same, List.append_nil], Nat.zero_le n, Nat.zero_le n, Nat.zero_le n⟩

/-- One call, and diagnostics after it, are within 1. -/
theorem callsWithin_one {s t : State} (o : Output) (diags : List Diag)
    (out : t.out = s.out ++ o :: diags.map .diag) : CallsWithin 1 s t := by
  have quiet : ∀ p : Output → Bool, (∀ k, p (.diag k) = false) → (o :: diags.map .diag).countP p ≤ 1 := by
    intro p hp
    have uncounted : (diags.map Output.diag).countP p = 0 := by simp [hp]
    rw [List.countP_cons, uncounted]
    split <;> decide
  exact ⟨_, out, quiet _ fun _ => rfl, quiet _ fun _ => rfl, quiet _ fun _ => rfl⟩

section
variable {n : Nat} {s t : State}

/-- Raising an event is no call. -/
theorem CallsWithin.raiseIrq (e : Event) (h : CallsWithin n s t) : CallsWithin n s (raiseIrq e t) := by
  have quiet : CallsWithin 0 t (afterEvent (t.bitOf e) t) := by
    refine ⟨_, rfl, ?_⟩
    split <;> decide
  rw [raiseIrq_eq]
  exact h.trans quiet

theorem CallsWithin.markDone (h : CallsWithin n s t) : CallsWithin n s (markDone t) :=
  h.trans (callsWithin_of_out_eq 0 rfl)

/-- A send is none of the three calls. -/
theorem CallsWithin.sendLoop (r : Nat) (h : CallsWithin n s t) : CallsWithin n s (sendLoop r t) := by
  induction r generalizing t with
  | zero => exact h
  | succ r ih =>
    unfold Machine.sendLoop
    cases hq : t.txq with
    | nil => rw [txPop_nil hq]; exact h.raiseIrq _
    | cons b q =>
      rw [txPop_cons hq]
      have sent : CallsWithin 0 t (sendByte b { t with txq := q }) :=
        ⟨[.busSend b], rfl, Nat.le_refl 0, Nat.le_refl 0, Nat.le_refl 0⟩
      exact ih (h.trans sent)

theorem CallsWithin.dataPhase (r : Nat) (h : CallsWithin n s t) : CallsWithin n s (dataPhase r t) :=
  (h.sendLoop r).raiseIrq .txSendEmpty

end

/-- WRITE calls `Bus.begin` once at most (R196). -/
theorem writeBody_callsWithin {n : BitVec 8} {en ex : Bool} {s t : State} (h : writeBody n en ex s = .next t) :
    CallsWithin 1 s t := by
  have noCall : CallsWithin 1 s s := callsWithin_of_out_eq 1 rfl
  cases bus : s.sr.busBusy with
  | true =>
    rw [writeBody_busy bus] at h
    cases h
    exact noCall.dataPhase _
  | false =>
    cases first : s.txq with
    | nil =>
      rw [writeBody_empty bus first] at h
      cases h
      exact noCall.raiseIrq _
    | cons b q =>
      obtain ⟨r, answers, draws, answer⟩ := busBegin_cases (addressOf b) (directionOf b) { s with txq := q }
      cases r with
      | nack =>
        rw [writeBody_nack bus first answer] at h
        cases h
        refine CallsWithin.raiseIrq _ (callsWithin_one (.busBegin (addressOf b) (directionOf b) .nack)
          [.noAck (addressOf b)] ?_)
        simp
      | ok =>
        rw [writeBody_ok bus first answer] at h
        split at h
        · cases h
        · cases h
          exact ((callsWithin_one (.busBegin (addressOf b) (directionOf b) .ok) [] rfl).raiseIrq _).dataPhase _

/-- READ calls `Bus.recv` once at most (R199). -/
theorem readBody_callsWithin (s : State) : CallsWithin 1 s (readBody s) := by
  by_cases full : s.rxq.length = 32
  · rw [readBody, if_pos full]
    exact (callsWithin_of_out_eq 1 rfl).raiseIrq _
  · obtain ⟨b, answers, draws, received⟩ := busRecv_cases s
    have one : CallsWithin 1 s (rxPush b { s with
        recvAnswers := answers, draws := draws, out := s.out ++ [.busRecv b] }) :=
      callsWithin_one (.busRecv b) [] rfl
    rw [readBody, if_neg full, received]
    simp only
    split
    · exact one.raiseIrq _
    · exact one

/-- A command makes one call of each kind at most. -/
theorem runCommand_callsWithin {c : Slot} {s t : State} (h : runCommand c s = .next t) : CallsWithin 1 s t := by
  have noCall : CallsWithin 1 s s := callsWithin_of_out_eq 1 rfl
  have ended : CallsWithin 1 s (busEnd (setBusBusy false s)) := callsWithin_one .busEnd [] rfl
  unfold runCommand at h
  split at h
  · cases h; exact ended.markDone
  · obtain ⟨u, body, marked⟩ := andThen_eq_next.mp h
    cases marked
    exact (writeBody_callsWithin body).markDone
  · cases h; exact (readBody_callsWithin s).markDone
  · cases h; exact (ended.raiseIrq _).markDone
  · cases h; exact (noCall.raiseIrq _).markDone
  all_goals (cases h; exact noCall.markDone)

theorem visitSlot_callsWithin {i : Fin 16} {s t : State} (h : visitSlot i s = .next t) : CallsWithin 1 s t := by
  cases hd : (s.slot i).done with
  | true =>
    rw [visitSlot_done hd] at h
    cases h
    exact callsWithin_of_out_eq 1 rfl
  | false =>
    rw [visitSlot_pending hd] at h
    exact runCommand_callsWithin (s := { s with cur := i }) h

theorem passFrom_callsWithin {l : List (Fin 16)} {s t : State} (h : passFrom l s = .next t) :
    CallsWithin l.length s t := by
  induction l generalizing s with
  | nil => cases h; exact callsWithin_of_out_eq 0 rfl
  | cons i l ih =>
    obtain ⟨u, visited, rest⟩ := andThen_eq_next.mp h
    rw [List.length_cons, Nat.add_comm]
    exact (visitSlot_callsWithin visited).trans (ih rest)

/-- A pass visits sixteen slots, so it makes sixteen calls of each kind at most. -/
theorem enginePass_callsWithin {s t : State} (h : enginePass s = .next t) : CallsWithin 16 s t := by
  obtain ⟨u, visited, rests⟩ := andThen_eq_next.mp h
  cases rests
  exact passFrom_callsWithin visited

/-- Each send takes a byte to the bus. -/
theorem countP_isSend_le (l : List Output) : l.countP Output.isSend ≤ (l.filterMap Output.byteToBus).length := by
  rw [List.length_filterMap_eq_countP]
  refine List.countP_mono_left fun o _ send => ?_
  cases o with
  | busSend b => rfl
  | _ => cases send

/-- Settles O48: one call of each kind a visit, sixteen visits; and each byte sent was in `TXQ` (`BytesConserved`). -/
theorem passCallsAreBounded : Obligations.PassCallsAreBounded := by
  intro s t pass
  obtain ⟨new, out, begins, ends, recvs⟩ := enginePass_callsWithin pass
  obtain ⟨new', out', taken, -⟩ := (enginePass_steps pass).1.bytesConserved
  obtain rfl : new = new' := List.append_cancel_left (out.symm.trans out')
  have sends : new.countP Output.isSend ≤ s.txq.length := by
    rw [taken, List.length_append]
    exact (countP_isSend_le new).trans (Nat.le_add_right ..)
  exact ⟨new, out, begins, ends, recvs, sends, fun bounded => sends.trans bounded.1⟩

/-! ### Host operations that trigger no pass (R190, R232) -/

/-- From `s` to `t` no transport call was put out, no interrupt bit was set and the line did not rise. -/
def Quiet (s t : State) : Prop :=
  t.busTrace = s.busTrace ∧ t.intRaw &&& ~~~s.intRaw = 0 ∧ t.intSt &&& ~~~s.intSt = 0 ∧
    (t.irq = true → s.irq = true)

/-- Outputs that are no transport calls leave the trace. -/
theorem busTrace_of_out_append {s t : State} {new : List Output} (out : t.out = s.out ++ new)
    (quiet : new.filter Output.isBusCall = []) : t.busTrace = s.busTrace := by
  rw [State.busTrace, out, List.filter_append, quiet, List.append_nil, State.busTrace]

/-- An operation that leaves the interrupt registers and the line is quiet if its outputs are. -/
theorem quiet_of_out_append {s t : State} {new : List Output} (out : t.out = s.out ++ new)
    (quiet : new.filter Output.isBusCall = []) (raw : t.intRaw = s.intRaw) (status : t.intSt = s.intSt)
    (line : t.irq = s.irq) : Quiet s t :=
  ⟨busTrace_of_out_append out quiet, by simp [raw], by simp [status], by simp [line]⟩

/-- A host operation that triggers no pass is quiet. -/
theorem exec_quiet {i : Instr} {s t : State} (host : i.isHostAccess = true)
    (idle : ∀ v, i = .wrCtr v → v.getLsbD s.params.layout.ctr.transStart.lo = false) (h : exec i s = .next t) :
    Quiet s t := by
  have unchanged : s.out = s.out ++ [] := (List.append_nil _).symm
  cases exec_next_cases h with
  | rdIntRaw => exact ⟨busTrace_of_out_append rfl rfl, by simp, by simp, id⟩
  | wrIntClr v =>
    refine ⟨busTrace_of_out_append rfl ?_, by simp, by simp, nofun⟩
    split <;> rfl
  | wrIntEna v => exact quiet_of_out_append unchanged rfl rfl rfl rfl
  | wrSr v => exact quiet_of_out_append unchanged rfl rfl rfl rfl
  | wrSlot j v => exact quiet_of_out_append unchanged rfl rfl rfl rfl
  | other _ _ f tq rq n new fits fields quiet hi => exact quiet_of_out_append rfl quiet rfl rfl rfl
  | slave v => exact quiet_of_out_append rfl rfl rfl rfl rfl
  | ctr v => exact quiet_of_out_append unchanged rfl rfl rfl rfl
  | pass v _ u trigger steps rests all => exact absurd trigger (Bool.eq_false_iff.mp (idle v rfl))
  | cmd _ _ _ command steps cursor done => exact absurd host (Bool.eq_false_iff.mp command)

/-- Settles O54, by the effects a host operation can have (`exec_quiet`). -/
theorem onlyATriggerReachesTheBus : Obligations.OnlyATriggerReachesTheBus := fun _ _ _ => exec_quiet

end Sys2Proof.Machine
end

section
/-! PROOFS. Faults and events: the fault state that nothing leaves, the interrupt latch bit by bit, the events that
nothing raises, and where a status bit comes from. -/

namespace Sys2Proof.Machine

/-! ### The events that nothing raises (R232) -/

/-- Settles O52: no effect of the engine is one of the eight events, and no two events share a bit, so each effect, each
instruction and the reset leave their bits 0 (`step_keeps_unraisedClear`). -/
theorem stepKeepsUnraisedEventsClear : Obligations.StepKeepsUnraisedEventsClear := fun _ _ wf clear h =>
  (step_keeps_unraisedClear h ⟨wf, clear⟩).2

/-! ### The fault state (R246) -/

/-- A faulted block serves no event, not even a reset. -/
theorem step_of_fault {s : State} {f : Fault} (faulted : s.fault = some f) : step s = .fault f := by
  rw [step, serveHost, faulted]

/-- Settles O11, by the slave case of the `CTR` write and by `step_of_fault`. -/
theorem slaveModeRequestFaultsForEver : Obligations.SlaveModeRequestFaultsForEver :=
  ⟨fun _ _ => exec_wrCtr_slave, fun _ => step_of_fault⟩

/-! ### The interrupt latch, bit by bit (R233) -/

/-- A bit of an event's mask. -/
theorem getLsbD_event_mask {k : Nat} (b : Nat) (hk : k < 16) : (1#16 <<< b).getLsbD k = (k == b) := by
  rw [← BitVec.twoPow_eq, BitVec.getLsbD_twoPow, Bool.eq_iff_iff]
  simp only [Bool.and_eq_true, decide_eq_true_eq, beq_iff_eq]
  omega

/-- An event sets its own raw bit. -/
theorem afterEvent_intRaw_getLsbD {k : Nat} (b : Nat) (s : State) (hk : k < 16) :
    (afterEvent b s).intRaw.getLsbD k = (s.intRaw.getLsbD k || k == b) := by
  rw [afterEvent_intRaw, BitVec.getLsbD_or, getLsbD_event_mask b hk]

/-- An event sets its own status bit, if it is enabled. -/
theorem afterEvent_intSt_getLsbD {k : Nat} (b : Nat) (s : State) (hk : k < 16) :
    (afterEvent b s).intSt.getLsbD k = (s.intSt.getLsbD k || (k == b && s.intEna.getLsbD k)) := by
  rw [afterEvent_intSt]
  by_cases same : k = b
  · subst same
    cases enabled : s.intEna.getLsbD k with
    | true => rw [if_pos rfl, BitVec.getLsbD_or, getLsbD_event_mask k hk, beq_self_eq_true, Bool.and_true]
    | false => simp
  · have other : (k == b) = false := beq_false_of_ne same
    rw [other, Bool.false_and, Bool.or_false]
    split
    · rw [BitVec.getLsbD_or, getLsbD_event_mask b hk, other, Bool.or_false]
    · rfl

/-- An event that is raised again finds its bits set and the line as it leaves it. -/
theorem afterEvent_idem (b : Nat) (s : State) : afterEvent b (afterEvent b s) = afterEvent b s := by
  cases enabled : s.intEna.getLsbD b <;> simp [afterEvent, enabled, BitVec.or_assoc]

/-- Besides the two registers and the line, an event changes the outputs alone, by the edge of the line. -/
theorem afterEvent_frame (b : Nat) (s : State) : afterEvent b s = { s with
    intRaw := (afterEvent b s).intRaw, intSt := (afterEvent b s).intSt, irq := (afterEvent b s).irq
    out := s.out ++ (if (afterEvent b s).irq = s.irq then [] else [.irq true]) } := by
  have edge : (if s.intEna.getLsbD b && !s.irq then [Output.irq true] else []) =
      if (s.irq || s.intEna.getLsbD b) = s.irq then [] else [.irq true] := by
    cases s.irq <;> cases s.intEna.getLsbD b <;> rfl
  rw [afterEvent_irq, ← edge]
  rfl

/-- Settles O29: raising an event is its closed form (`raiseIrq_eq`), read bit by bit. -/
theorem raisingAnEventLatchesIt : Obligations.RaisingAnEventLatchesIt := by
  intro e s
  have again : (afterEvent (s.bitOf e) s).bitOf e = s.bitOf e := rfl
  rw [raiseIrq_eq, raiseIrq_eq, again]
  exact ⟨fun _ => afterEvent_intRaw_getLsbD _ s, fun _ => afterEvent_intSt_getLsbD _ s, afterEvent_irq s _,
    afterEvent_frame _ s, afterEvent_idem _ s⟩

/-! ### Where a status bit comes from (R233, R234) -/

/-- The enable mask of `u` is that of `s`, and a status bit of `u` was one of `s`, or it was enabled and its raw bit is
set. -/
def StatusFromEnabled (s u : State) : Prop :=
  u.intEna = s.intEna ∧ ∀ k < 16, u.intSt.getLsbD k = true →
    s.intSt.getLsbD k = true ∨ (s.intEna.getLsbD k = true ∧ u.intRaw.getLsbD k = true)

theorem StatusFromEnabled.refl (s : State) : StatusFromEnabled s s := ⟨rfl, fun _ _ => .inl⟩

/-- A further event keeps the raw bits, and adds a status bit only together with its raw bit. -/
theorem StatusFromEnabled.afterEvent {s u : State} (h : StatusFromEnabled s u) (b : Nat) :
    StatusFromEnabled s (afterEvent b u) := by
  obtain ⟨mask, old⟩ := h
  refine ⟨mask, fun k hk set => ?_⟩
  rw [afterEvent_intSt_getLsbD b u hk, Bool.or_eq_true, Bool.and_eq_true] at set
  rw [afterEvent_intRaw_getLsbD b u hk, ← mask]
  rcases set with was | ⟨raised, enabled⟩
  · exact (old k hk was).imp_right fun ⟨enabled, raw⟩ => ⟨mask ▸ enabled, by rw [raw, Bool.true_or]⟩
  · exact .inr ⟨enabled, by rw [raised, Bool.or_true]⟩

theorem EngineStep.statusFromEnabled {s u t : State} (h : EngineStep u t) (hs : StatusFromEnabled s u) :
    StatusFromEnabled s t := by
  cases h with
  | event e he => exact hs.afterEvent _
  | _ => exact hs

theorem EngineSteps.statusFromEnabled {s t : State} (h : EngineSteps s t) : StatusFromEnabled s t :=
  h.keeps (fun _ _ => EngineStep.statusFromEnabled) (.refl s)

/-- Every status bit after an instruction was set before, or it was enabled and its raw bit is set: only events set
status bits, and no instruction that changes the enable mask raises one. -/
theorem exec_status_bit {i : Instr} {s t : State} {k : Nat} (h : exec i s = .next t) (hk : k < 16)
    (set : t.intSt.getLsbD k = true) :
    s.intSt.getLsbD k = true ∨ (s.intEna.getLsbD k = true ∧ t.intRaw.getLsbD k = true) := by
  cases exec_next_cases h with
  | wrIntClr v => simp at set
  | pass v _ u trigger steps rests all => exact steps.statusFromEnabled.2 k hk set
  | cmd _ _ _ hi steps cursor done => exact steps.statusFromEnabled.2 k hk set
  | _ => exact .inl set

/-- A set bit of `a` that is one of `b` or of `m` leaves nothing outside both. -/
theorem risen_outside_eq_zero {w : Nat} {a b m : BitVec w}
    (h : ∀ k < w, a.getLsbD k = true → b.getLsbD k = true ∨ m.getLsbD k = true) : a &&& ~~~b &&& ~~~m = 0 := by
  refine BitVec.eq_of_getLsbD_eq fun k hk => ?_
  cases ha : a.getLsbD k with
  | false => simp [ha]
  | true =>
    rcases h k hk ha with hb | hm
    · simp [hb]
    · simp [hm]

/-- Settles O56, bit by bit from `exec_status_bit`. -/
theorem statusBitsComeOnlyFromEnabledEvents : Obligations.StatusBitsComeOnlyFromEnabledEvents := fun _ _ _ h =>
  ⟨risen_outside_eq_zero fun _ hk set => (exec_status_bit h hk set).imp_right And.left,
    risen_outside_eq_zero fun _ hk set => (exec_status_bit h hk set).imp_right And.right⟩

end Sys2Proof.Machine
end

section
/-! PROOFS. The reset operation (R270). -/

namespace Sys2Proof.Machine

/-- With no fault mark, a pending reset is taken from the host's events and done. -/
theorem step_of_reset {s : State} {rest : List HostEvent} (unfaulted : s.fault = none)
    (pending : s.host = .reset :: rest) : step s = .next (resetBlock { s with host := rest }) := by
  simp only [step, serveHost, unfaulted, pending]

/-- Settles O9: the step is the reset block (`step_of_reset`), whose slots are those of `resetBlock_slot` and whose other
fields are those of `resetBlock_eq`. -/
theorem resetOperationSetsResetValues : Obligations.ResetOperationSetsResetValues := by
  intro s rest unfaulted pending
  refine ⟨resetBlock { s with host := rest }, step_of_reset unfaulted pending, resetBlock_slot _, ?_⟩
  rw [resetBlock_eq]
  rfl

end Sys2Proof.Machine
end
